-- ==== Sys2Proof/Word.lean ====
section
/-! DEFINITION. The widths the spec names (00_scope.md R10, R12): every value is unsigned. -/

namespace Sys2Proof

/-- A register or command word, u32. -/
abbrev Word := BitVec 32

/-- A buffer byte, u8. -/
abbrev Byte := BitVec 8

/-- A 16-bit word: the CRC accumulator, ARG.HI, ARG.LO, an IMM16 operand. -/
abbrev Half := BitVec 16

/-- A length field, u9: TXLEN, RXLEN, PLEN, N9, CNT. -/
abbrev Len := BitVec 9

/-- A bit index, u11: BIDX. -/
abbrev BitIndex := BitVec 11

/-- A block offset: 10 offset bits (20_memory.md R50). -/
abbrev Offset := BitVec 10

end Sys2Proof
end

