-- ==== Sys2Proof/Config.lean ====
section
/-! DEFINITION. The parameters of 00_scope.md: the fixed ones of R8, and the four open ones of R9 as constants without a
body, so that nothing can be proved of their values. -/

namespace Sys2Proof.Config

/-- `FRAME_CAP`: capacity of each frame buffer in bytes (R8). -/
def frameCap : Nat := 256

/-- `DATA_CAP`: capacity of the DATA buffer in bytes (R8). -/
def dataCap : Nat := 256

/-- `MIN_FRAME`: minimum frame length in bytes (R8). -/
def minFrame : Nat := 4

/-- `CRC_INIT`: the initial CRC accumulator (R8). -/
def crcInit : Half := 0xFFFF#16

/-- `CRC_POLY_R`: the reflected CRC polynomial (R8). -/
def crcPolyR : Half := 0xA001#16

/-- The size of the block's offset space in bytes (R8, 20_memory.md R50). -/
def blockSize : Nat := 1024

/-- `MRFC_BASE` (R9): where the platform maps the block. Open; log 7. -/
opaque mrfcBase : Nat

/-- `CMD_LATENCY` (R9, 70_reset_and_hazards.md R250): how many host operations come between a CMD write and its engine
step, at most. Open, a fresh value for each command; log 5. -/
opaque cmdLatency : Nat → Nat

/-- `BUF_RESET` (R9, 70_reset_and_hazards.md R243): what one read of a byte not written since reset returns. Open, a
fresh value for each read; log 2. -/
opaque bufReset : Nat → Byte

/-- `POST_FAULT` (R9, 60_exceptions.md R205): the value of a field of width `w` after a fatal fault. Open; log 3. -/
opaque postFault (w : Nat) : Nat → BitVec w

/-- The block offset a host address reaches, or none where the address lies outside the block (20_memory.md R50). Every
rule, and every host operation of this model, is in block offsets. -/
def blockOffset (address : Nat) : Option Offset :=
  if mrfcBase ≤ address ∧ address < mrfcBase + blockSize then some (BitVec.ofNat 10 (address - mrfcBase)) else none

end Sys2Proof.Config
end

