-- ==== Sys2Proof/Syntax.lean ====
section
/-! DEFINITION. The commands: one constructor per row of spec/opcode_table.json (30_encoding.md R73), with the fields of
its format (R71, R72). -/

namespace Sys2Proof

/-- A command with its operands. The fields are unsigned numbers taken as they stand (R72). -/
inductive Instr where
  | nop
  | beginPack (sa fc : Byte)
  | packByte (imm8 : Byte)
  | packWord (imm16 : Half)
  | packBytes (n9 : Len)
  | endPack
  | crcInit
  | crcFeed (imm8 : Byte)
  | valCrc
  | valResp (sa fc : Byte)
  | bitSet (bidx : BitIndex) (cnt : Len) (v : Bool)
  | bitGet (bidx : BitIndex) (cnt : Len)
  | reqRdCoils (sa : Byte)
  | reqRdDisc (sa : Byte)
  | reqRdHregs (sa : Byte)
  | reqRdIregs (sa : Byte)
  | reqWrCoil (sa : Byte) (v : Bool)
  | reqWrReg (sa : Byte)
  | reqWrCoils (sa : Byte)
  | reqWrRegs (sa : Byte)
  deriving DecidableEq, Repr

end Sys2Proof
end

