-- ==== Sys2Proof/WellFormed.lean ====
section
/-! DEFINITION. The field value constraints of 30_encoding.md R74: the operands a legal command word can hold. -/

namespace Sys2Proof

/-- R74: PACK_BYTES has N9 <= 256; BIT_SET and BIT_GET have CNT <= 256. The other fields take every value of their width.
BIT_GET's third constraint, V = 0, is in the syntax: `bitGet` has no V. -/
def Instr.wf : Instr → Bool
  | .packBytes n9 => decide (n9.toNat ≤ Config.dataCap)
  | .bitSet _ cnt _ => decide (cnt.toNat ≤ Config.dataCap)
  | .bitGet _ cnt => decide (cnt.toNat ≤ Config.dataCap)
  | .nop => true
  | .beginPack _ _ => true
  | .packByte _ => true
  | .packWord _ => true
  | .endPack => true
  | .crcInit => true
  | .crcFeed _ => true
  | .valCrc => true
  | .valResp _ _ => true
  | .reqRdCoils _ => true
  | .reqRdDisc _ => true
  | .reqRdHregs _ => true
  | .reqRdIregs _ => true
  | .reqWrCoil _ _ => true
  | .reqWrReg _ => true
  | .reqWrCoils _ => true
  | .reqWrRegs _ => true

end Sys2Proof
end

