-- ==== Sys2Proof/Decode.lean ====
section
/-! DEFINITION. Command words (30_encoding.md): the opcode map, the decoder of R80 and R81, total on every 32-bit word and
rejecting by name, and after it the encoder of R82. -/

namespace Sys2Proof

/-- The rows of the opcode map (R73). -/
inductive Opcode where
  | nop | beginPack | packByte | packWord | packBytes | endPack | crcInit | crcFeed | valCrc | valResp | bitSet | bitGet
  | reqRdCoils | reqRdDisc | reqRdHregs | reqRdIregs | reqWrCoil | reqWrReg | reqWrCoils | reqWrRegs
  deriving DecidableEq, Repr

/-- Why a command word is illegal (R75). The three reasons have the same outcome (R80). -/
inductive DecodeError where
  /-- OP is not in the map of R73. -/
  | reservedOpcode
  /-- A reserved bit of the format is 1 (R71). -/
  | reservedBits
  /-- A field breaks R74. -/
  | fieldRange
  deriving DecidableEq, Repr

/-- R73: the value of OP for each command. -/
def Opcode.toByte : Opcode → Byte
  | .nop => 0x00#8
  | .beginPack => 0x01#8
  | .packByte => 0x02#8
  | .packWord => 0x03#8
  | .packBytes => 0x04#8
  | .endPack => 0x05#8
  | .crcInit => 0x08#8
  | .crcFeed => 0x09#8
  | .valCrc => 0x10#8
  | .valResp => 0x11#8
  | .bitSet => 0x18#8
  | .bitGet => 0x19#8
  | .reqRdCoils => 0x21#8
  | .reqRdDisc => 0x22#8
  | .reqRdHregs => 0x23#8
  | .reqRdIregs => 0x24#8
  | .reqWrCoil => 0x25#8
  | .reqWrReg => 0x26#8
  | .reqWrCoils => 0x2F#8
  | .reqWrRegs => 0x30#8

/-- R73 read the other way: the command OP names, or none for a reserved opcode (R75). -/
def opcodeOf (op : Byte) : Option Opcode :=
  match op.toNat with
  | 0x00 => some .nop
  | 0x01 => some .beginPack
  | 0x02 => some .packByte
  | 0x03 => some .packWord
  | 0x04 => some .packBytes
  | 0x05 => some .endPack
  | 0x08 => some .crcInit
  | 0x09 => some .crcFeed
  | 0x10 => some .valCrc
  | 0x11 => some .valResp
  | 0x18 => some .bitSet
  | 0x19 => some .bitGet
  | 0x21 => some .reqRdCoils
  | 0x22 => some .reqRdDisc
  | 0x23 => some .reqRdHregs
  | 0x24 => some .reqRdIregs
  | 0x25 => some .reqWrCoil
  | 0x26 => some .reqWrReg
  | 0x2F => some .reqWrCoils
  | 0x30 => some .reqWrRegs
  | _ => none

/-- OP = w[7:0] (R70). -/
def opField (w : Word) : Byte := w.extractLsb' 0 8

/-- SA = w[15:8] (R71); IMM8 has the same place. -/
def saField (w : Word) : Byte := w.extractLsb' 8 8

/-- FC = w[23:16] (R71). -/
def fcField (w : Word) : Byte := w.extractLsb' 16 8

/-- IMM16 = w[23:8] (R71). -/
def imm16Field (w : Word) : Half := w.extractLsb' 8 16

/-- N9 = w[16:8] (R71). -/
def n9Field (w : Word) : Len := w.extractLsb' 8 9

/-- BIDX = w[18:8] (R71). -/
def bidxField (w : Word) : BitIndex := w.extractLsb' 8 11

/-- CNT = w[27:19] (R71). -/
def cntField (w : Word) : Len := w.extractLsb' 19 9

/-- V = w[28] in format BT (R71). -/
def bitVField (w : Word) : Bool := w.getLsbD 28

/-- V = w[16] in format RC (R71). -/
def coilVField (w : Word) : Bool := w.getLsbD 16

/-- The reserved bits of a format that reserves w[31:from] are all 0 (R71). -/
def reservedClear (w : Word) (lowest : Nat) : Bool := w >>> lowest == 0#32

/-- A word whose reserved bits start at `lowest`: its command, where they are 0 (R80, second check). -/
def withReserved (w : Word) (lowest : Nat) (r : Except DecodeError Instr) : Except DecodeError Instr :=
  if reservedClear w lowest then r else .error .reservedBits

/-- A command with a byte count, where the count is at most 256 (R74, R80's third check). -/
def withCount (n : Len) (i : Instr) : Except DecodeError Instr :=
  if n.toNat ≤ Config.dataCap then .ok i else .error .fieldRange

/-- Format N: no operand; w[31:8] = 0 (R71). -/
def decodeN (w : Word) (i : Instr) : Except DecodeError Instr := withReserved w 8 (.ok i)

/-- Formats B and RQ: one byte in w[15:8]; w[31:16] = 0 (R71). -/
def decodeB (w : Word) (f : Byte → Instr) : Except DecodeError Instr := withReserved w 16 (.ok (f (saField w)))

/-- Format AF: SA and FC; w[31:24] = 0 (R71). -/
def decodeAF (w : Word) (f : Byte → Byte → Instr) : Except DecodeError Instr :=
  withReserved w 24 (.ok (f (saField w) (fcField w)))

/-- Format W: IMM16; w[31:24] = 0 (R71). -/
def decodeW (w : Word) (f : Half → Instr) : Except DecodeError Instr := withReserved w 24 (.ok (f (imm16Field w)))

/-- Format L: N9 <= 256; w[31:17] = 0 (R71, R74). -/
def decodeL (w : Word) (f : Len → Instr) : Except DecodeError Instr :=
  withReserved w 17 (withCount (n9Field w) (f (n9Field w)))

/-- Format BT for BIT_SET: BIDX, CNT <= 256, V; w[31:29] = 0 (R71, R74). -/
def decodeBitSet (w : Word) : Except DecodeError Instr :=
  withReserved w 29 (withCount (cntField w) (.bitSet (bidxField w) (cntField w) (bitVField w)))

/-- Format BT for BIT_GET: V must be 0 as well (R74). -/
def decodeBitGet (w : Word) : Except DecodeError Instr :=
  withReserved w 29
    (if bitVField w then .error .fieldRange else withCount (cntField w) (.bitGet (bidxField w) (cntField w)))

/-- Format RC: SA and V; w[31:17] = 0 (R71). -/
def decodeRC (w : Word) (f : Byte → Bool → Instr) : Except DecodeError Instr :=
  withReserved w 17 (.ok (f (saField w) (coilVField w)))

/-- The fields of a word whose OP names `op`, by the format of its row (R71, R73). -/
def decodeFields (op : Opcode) (w : Word) : Except DecodeError Instr :=
  match op with
  | .nop => decodeN w .nop
  | .beginPack => decodeAF w .beginPack
  | .packByte => decodeB w .packByte
  | .packWord => decodeW w .packWord
  | .packBytes => decodeL w .packBytes
  | .endPack => decodeN w .endPack
  | .crcInit => decodeN w .crcInit
  | .crcFeed => decodeB w .crcFeed
  | .valCrc => decodeN w .valCrc
  | .valResp => decodeAF w .valResp
  | .bitSet => decodeBitSet w
  | .bitGet => decodeBitGet w
  | .reqRdCoils => decodeB w .reqRdCoils
  | .reqRdDisc => decodeB w .reqRdDisc
  | .reqRdHregs => decodeB w .reqRdHregs
  | .reqRdIregs => decodeB w .reqRdIregs
  | .reqWrCoil => decodeRC w .reqWrCoil
  | .reqWrReg => decodeB w .reqWrReg
  | .reqWrCoils => decodeB w .reqWrCoils
  | .reqWrRegs => decodeB w .reqWrRegs

/-- R80, R81: the decoder. OP selects the row, then the reserved bits and the fields are checked. -/
def decode (w : Word) : Except DecodeError Instr :=
  match opcodeOf (opField w) with
  | none => .error .reservedOpcode
  | some op => decodeFields op w

/-- The command the decoder reads from a word given as a number of `nbits` bits, bit 0 its least significant; none where
the word is illegal. Every command is one 32-bit word (R70). -/
def decodeTableWord (nbits w : Nat) : Option Instr :=
  match decode (BitVec.ofNat 32 (w % 2 ^ nbits)) with
  | .ok i => some i
  | .error _ => none

/-! ## The encoder (R82) -/

/-- R82 `encN`. -/
def encN (op : Opcode) : Word := op.toByte.setWidth 32

/-- R82 `encB`, and `encRQ` with the same layout. -/
def encB (op : Opcode) (b : Byte) : Word := (b.setWidth 32 <<< 8) ||| encN op

/-- R82 `encAF`. -/
def encAF (op : Opcode) (sa fc : Byte) : Word := (fc.setWidth 32 <<< 16) ||| (sa.setWidth 32 <<< 8) ||| encN op

/-- R82 `encW`. -/
def encW (op : Opcode) (imm16 : Half) : Word := (imm16.setWidth 32 <<< 8) ||| encN op

/-- R82 `encL`. -/
def encL (op : Opcode) (n : Len) : Word := (n.setWidth 32 <<< 8) ||| encN op

/-- R82 `encBT`. -/
def encBT (op : Opcode) (bidx : BitIndex) (cnt : Len) (v : Bool) : Word :=
  ((BitVec.ofBool v).setWidth 32 <<< 28) ||| (cnt.setWidth 32 <<< 19) ||| (bidx.setWidth 32 <<< 8) ||| encN op

/-- R82 `encRC`. -/
def encRC (op : Opcode) (sa : Byte) (v : Bool) : Word :=
  ((BitVec.ofBool v).setWidth 32 <<< 16) ||| (sa.setWidth 32 <<< 8) ||| encN op

/-- The row of the opcode map a command belongs to (R73). -/
def opcode : Instr → Opcode
  | .nop => .nop
  | .beginPack _ _ => .beginPack
  | .packByte _ => .packByte
  | .packWord _ => .packWord
  | .packBytes _ => .packBytes
  | .endPack => .endPack
  | .crcInit => .crcInit
  | .crcFeed _ => .crcFeed
  | .valCrc => .valCrc
  | .valResp _ _ => .valResp
  | .bitSet _ _ _ => .bitSet
  | .bitGet _ _ => .bitGet
  | .reqRdCoils _ => .reqRdCoils
  | .reqRdDisc _ => .reqRdDisc
  | .reqRdHregs _ => .reqRdHregs
  | .reqRdIregs _ => .reqRdIregs
  | .reqWrCoil _ _ => .reqWrCoil
  | .reqWrReg _ => .reqWrReg
  | .reqWrCoils _ => .reqWrCoils
  | .reqWrRegs _ => .reqWrRegs

/-- R82: the word of a command, by the format of its row. -/
def encode : Instr → Word
  | .nop => encN .nop
  | .beginPack sa fc => encAF .beginPack sa fc
  | .packByte b => encB .packByte b
  | .packWord w => encW .packWord w
  | .packBytes n => encL .packBytes n
  | .endPack => encN .endPack
  | .crcInit => encN .crcInit
  | .crcFeed b => encB .crcFeed b
  | .valCrc => encN .valCrc
  | .valResp sa fc => encAF .valResp sa fc
  | .bitSet bidx cnt v => encBT .bitSet bidx cnt v
  | .bitGet bidx cnt => encBT .bitGet bidx cnt false
  | .reqRdCoils sa => encB .reqRdCoils sa
  | .reqRdDisc sa => encB .reqRdDisc sa
  | .reqRdHregs sa => encB .reqRdHregs sa
  | .reqRdIregs sa => encB .reqRdIregs sa
  | .reqWrCoil sa v => encRC .reqWrCoil sa v
  | .reqWrReg sa => encB .reqWrReg sa
  | .reqWrCoils sa => encB .reqWrCoils sa
  | .reqWrRegs sa => encB .reqWrRegs sa

end Sys2Proof
end

