-- ==== Sys2Proof/Machine/Crc.lean ====
section
/-! DEFINITION. The CRC function (40_frame_codec.md R100 to R103, R106): a constant of the block, not state. -/

namespace Sys2Proof.Machine

/-- One conditional shift-and-XOR step: of the table's construction (R102) and of the bit-at-a-time form (R106 item 3). -/
def crcShift (t : Half) : Half := if t.getLsbD 0 then (t >>> 1) ^^^ Config.crcPolyR else t >>> 1

/-- `n` such steps; eight from `acc ^ b` are the bit-at-a-time form of `crcStep acc b` (R106 item 3). -/
def crcShifts : Nat → Half → Half
  | 0, t => t
  | n + 1, t => crcShifts n (crcShift t)

/-- `CRCT[i]`: eight steps from `i` (R102). -/
def crcTable (i : Byte) : Half := crcShifts 8 (i.setWidth 16)

/-- `crcStep(acc, b)` (R101): the low byte of `acc ^ b` indexes the table. Of the two forms that R106 item 3 allows, this is
the table's. -/
def crcStep (acc : Half) (b : Byte) : Half :=
  (acc >>> 8) ^^^ crcTable (((acc ^^^ b.setWidth 16) &&& 0x00FF#16).setWidth 8)

/-- `crc16(seq)` (R103), the function that R106 items 1 and 2 speak of. -/
def crc16 (seq : List Byte) : Half := seq.foldl crcStep Config.crcInit

/-- `c[7:0]`, the CRC byte that goes first on the wire (20_memory.md R56). -/
def crcLow (c : Half) : Byte := c.extractLsb' 0 8

/-- `c[15:8]`, the CRC byte that goes second (20_memory.md R56). -/
def crcHigh (c : Half) : Byte := c.extractLsb' 8 8

end Sys2Proof.Machine
end

