-- ==== Sys2Proof/Machine/State.lean ====
section
/-! DEFINITION. The state of the block (10_state.md), what the host does to it, the reasons a step can stop, and reset. -/

namespace Sys2Proof.Machine

/-- The width of a host access: 1, 2 or 4 bytes (20_memory.md R52). -/
inductive Width where
  | byte | half | word
  deriving DecidableEq, Repr

/-- The number of bytes n of an access. -/
def Width.bytes : Width → Nat
  | .byte => 1
  | .half => 2
  | .word => 4

/-- One operation of the host program. The pseudo-instructions `cmd`, `ldbuf` and `ldrx` are lists of these
(44_control.md R184, R185; Machine/HostBus.lean). -/
inductive HostOp where
  /-- `MemWrite(off, n, v)` (R181); the bits of `v` above the width are not part of the access. -/
  | write (off : Offset) (width : Width) (v : Word)
  /-- `MemRead(off, n)` (R182). -/
  | read (off : Offset) (width : Width)
  /-- `poll`: read STATUS until BUSY = 0 (R183). -/
  | poll
  /-- `rdtx`: read TXLEN, then that many bytes of TX (R185). -/
  | rdtx
  deriving DecidableEq, Repr

/-- Who makes an access. The block admits one host; an access of any other agent is refused (20_memory.md R63). -/
inductive Agent where
  | host | other
  deriving DecidableEq, Repr

/-- What the outside world does to the block, one thing at a time (10_state.md R20; log 4, log 10). -/
inductive Input where
  | access (agent : Agent) (op : HostOp)
  | hardwareReset
  deriving DecidableEq, Repr

/-- A byte buffer: the bytes written since reset as (index, byte) pairs, indices rising. An index that is not listed has
not been written and holds no value: each read of it is a fresh `BUF_RESET` draw (70_reset_and_hazards.md R243; log 2). -/
abbrev Memory := List Host.Cell

/-- STATUS (10_state.md R24). -/
structure Status where
  busy   : Bool
  fatal  : Bool
  fcause : BitVec 4
  deriving DecidableEq, Repr

/-- RESULT (10_state.md R25). -/
structure Result where
  kind : BitVec 4
  exc  : Byte
  bit  : Bool
  deriving DecidableEq, Repr

/-- PLD (10_state.md R29). -/
structure Pld where
  plen : Len
  poff : Byte
  deriving DecidableEq, Repr

/-- The machine: the block's registers, hidden state and buffers (10_state.md R22 to R34), and the model's own four fields
at the end. -/
structure State where
  /-- ARG (R30). -/
  arg    : Word
  /-- STATUS (R24). -/
  status : Status
  /-- RESULT (R25). -/
  result : Result
  /-- CRC, bits [15:0] (R26). -/
  crc    : Half
  /-- TXLEN, bits [8:0] (R27). -/
  txlen  : Len
  /-- RXLEN, bits [8:0] (R28). -/
  rxlen  : Len
  /-- PLD (R29). -/
  pld    : Pld
  /-- FINFO (R33). -/
  finfo  : Word
  /-- PEND: the command word handed to the engine (R22). -/
  pend   : Option Word
  /-- TX, the outgoing frame buffer (R34). -/
  tx     : Memory
  /-- RX, the incoming frame buffer (R34). -/
  rx     : Memory
  /-- DATA, the caller's byte buffer (R34). -/
  data   : Memory
  /-- The model's own: what the outside world will do, in order (log 4). -/
  inputs : List Input
  /-- The model's own: host operations that still come before the engine step (log 5). -/
  latency : Nat
  /-- The model's own: what the bus returned to the host's last read, zero-extended; none before the first (log 6). -/
  rdata  : Option Word
  /-- The model's own: how many free values have been drawn (log 1). -/
  draws  : Nat
  deriving DecidableEq, Repr

/-- Why a step stops with a fault. Both are faults of the host, as the spec says; the block's own fatal faults are next
states (60_exceptions.md R203). -/
inductive Fault where
  /-- An access of a wrong width or a misaligned offset (20_memory.md R52, R53). Raised by a host access. Safe: the
  spec says that it changes no state. -/
  | hostAccessError (off : Offset) (width : Width)
  /-- An access other than a STATUS read or a CTRL write while BUSY = 1 (70_reset_and_hazards.md R240). Raised by a host
  access. Safe: the spec leaves the block's behaviour unspecified and asks for this fault. -/
  | hostProtocolViolation
  deriving DecidableEq, Repr

/-- Why a step is refused. -/
inductive Refusal where
  /-- An instruction without a meaning. Raised by `exec` alone. Safe. -/
  | notModelled (mnemonic : String)
  /-- An access of a second host agent (20_memory.md R63). Raised by an input. Safe: the spec asks for this refusal. -/
  | secondHostAgent
  deriving DecidableEq, Repr

/-- The state right after reset (10_state.md R37): every register at the spec's value, PEND none, no byte of a buffer
written. The model's own fields: nothing to do, nothing read, no free value drawn (DESIGN CHOICE, log 1, 4, 5, 6). -/
def State.reset : State where
  arg     := 0#32
  status  := { busy := false, fatal := false, fcause := 0#4 }
  result  := { kind := 0#4, exc := 0#8, bit := false }
  crc     := Config.crcInit
  txlen   := 0#9
  rxlen   := 0#9
  pld     := { plen := 0#9, poff := 0#8 }
  finfo   := 0#32
  pend    := none
  tx      := []
  rx      := []
  data    := []
  inputs  := []
  latency := 0
  rdata   := none
  draws   := 0

end Sys2Proof.Machine
end

