-- ==== Sys2Proof/Machine/Flags.lean ====
section
/-! DEFINITION. The codes and the register words of STATUS, RESULT and PLD (10_state.md R24, R25, R29). The block has no
other flags (R38). -/

namespace Sys2Proof.Machine

/-- The result kinds (10_state.md R25, 60_exceptions.md R200). OVERFLOW is reserved and never produced. -/
inductive ResultKind where
  | ok | invalidCrc16 | wrongSlave | malformed | exception | illegalCmd | overflow
  deriving DecidableEq, Repr

/-- R25: the KIND encoding. -/
def kindCode : ResultKind → BitVec 4
  | .ok => 0#4
  | .invalidCrc16 => 1#4
  | .wrongSlave => 2#4
  | .malformed => 3#4
  | .exception => 4#4
  | .illegalCmd => 5#4
  | .overflow => 6#4

/-- The causes of a fatal fault (60_exceptions.md R202). -/
inductive FatalCause where
  | txCap | bitRange | rxCap
  deriving DecidableEq, Repr

/-- R202: the FCAUSE code. -/
def causeCode : FatalCause → BitVec 4
  | .txCap => 1#4
  | .bitRange => 2#4
  | .rxCap => 3#4

/-- The STATUS word: BUSY [0], FATAL [1], FCAUSE [7:4], the rest 0 (R24). -/
def statusWord (st : Status) : Word :=
  0#24 ++ st.fcause ++ 0#2 ++ BitVec.ofBool st.fatal ++ BitVec.ofBool st.busy

/-- The RESULT word: `{15'b0, bit, exc[7:0], 4'b0, kind[3:0]}` (R25). -/
def resultWord (r : Result) : Word := 0#15 ++ BitVec.ofBool r.bit ++ r.exc ++ 0#4 ++ r.kind

/-- The PLD word: PLEN [8:0], POFF [23:16], the rest 0 (R29). -/
def pldWord (p : Pld) : Word := 0#8 ++ p.poff ++ 0#7 ++ p.plen

end Sys2Proof.Machine
end

