-- ==== Sys2Proof/Machine/Operands.lean ====
section
/-! DEFINITION. Operand assembly: the parts of ARG and of an IMM16 (30_encoding.md R72, 40_frame_codec.md R113), the bit
address of BIT_SET and BIT_GET (41_bit_packing.md R130), the byte counts of the request builders (43_request_builders.md),
and the byte lanes of the host bus (20_memory.md R54). -/

namespace Sys2Proof.Machine

/-- ARG.HI = ARG[31:16] (R30). -/
def argHi (arg : Word) : Half := arg.extractLsb' 16 16

/-- ARG.LO = ARG[15:0] (R30). -/
def argLo (arg : Word) : Half := arg.extractLsb' 0 16

/-- A packed word in a frame: high byte first (R113). -/
def wordBytes (w : Half) : List Byte := [w.extractLsb' 8 8, w.extractLsb' 0 8]

/-- `byteIndex = BIDX / 8` (R130). -/
def byteIndex (bidx : BitIndex) : Nat := bidx.toNat / 8

/-- `bitOffset = BIDX % 8` (R130). -/
def bitOffset (bidx : BitIndex) : Nat := bidx.toNat % 8

/-- `m = (1 << bitOffset) : u8` (R131). -/
def bitMask (bidx : BitIndex) : Byte := 1#8 <<< bitOffset bidx

/-- The byte with bit BIDX % 8 set to `v` and the other seven bits kept (R131). -/
def setBit (old : Byte) (bidx : BitIndex) (v : Bool) : Byte :=
  (old &&& ~~~bitMask bidx) ||| (if v then bitMask bidx else 0#8)

/-- `b = (DATA[byteIndex] >> bitOffset) & 1` (R132). -/
def getBit (byte : Byte) (bidx : BitIndex) : Bool := byte.getLsbD (bitOffset bidx)

/-- `ceil8(q) = (q + 7) / 8` (00_scope.md R11). -/
def ceil8 (q : Nat) : Nat := (q + 7) / 8

/-- The data bytes of a coil write of quantity `q` (R167). -/
def coilBytes (q : Half) : Nat := ceil8 q.toNat

/-- The data bytes of a register write of quantity `q` (R168). -/
def registerBytes (q : Half) : Nat := 2 * q.toNat

/-- `n[7:0]`, the byteCount byte of a write request (R167, R168). -/
def byteCount (n : Nat) : Byte := BitVec.ofNat 8 n

/-- The word of a coil value: 0xFF00 for 1, 0x0000 for 0 (R165). -/
def coilWord (v : Bool) : Half := if v then 0xFF00#16 else 0x0000#16

/-- The value of bytes on the bus, the lowest index in bits [7:0] (R54). -/
def leValue : List Byte → Word
  | [] => 0#32
  | b :: bs => b.setWidth 32 + (leValue bs <<< 8)

/-- The `n` bytes of a bus value, `v[8k+7 : 8k]` for k = 0 .. n-1 (R54). -/
def leBytes (n : Nat) (v : Word) : List Byte := (List.range n).map fun k => v.extractLsb' (8 * k) 8

end Sys2Proof.Machine
end

