-- ==== Sys2Proof/Machine/Ops.lean ====
section
/-! DEFINITION. The operations every meaning is made of: bytes of a buffer and their canonical form, recording a result,
raising a fatal fault and leaving it by reset, the pack primitives, and handing a command to the engine. -/

namespace Sys2Proof.Machine

/-! ## Buffers -/

/-- The canonical form from index `lowest` on: indices strictly rising, all below 256. -/
def Memory.wfFrom : Nat → Memory → Bool
  | _, [] => true
  | lowest, (i, _) :: m => decide (lowest ≤ i) && decide (i < Config.frameCap) && Memory.wfFrom (i + 1) m

/-- The canonical form of a buffer: indices strictly rising and inside 0..255 (10_state.md R34). An index that is not
listed reads as no value, so no entry can equal what an unlisted index reads as. -/
def Memory.wf (m : Memory) : Bool := Memory.wfFrom 0 m

/-- What index `i` holds: a byte, or none where nothing has written it since reset. -/
def Memory.lookup : Memory → Nat → Option Byte
  | [], _ => none
  | (j, v) :: m, i => if j = i then some v else Memory.lookup m i

/-- `B[i] <- v`, in the canonical form. -/
def Memory.write : Memory → Nat → Byte → Memory
  | [], i, v => [(i, v)]
  | (j, x) :: m, i, v => if i < j then (i, v) :: (j, x) :: m else if i = j then (i, v) :: m else (j, x) :: Memory.write m i v

/-- `B[i] <- b0, B[i+1] <- b1, ...`. -/
def Memory.writeAll : Memory → Nat → List Byte → Memory
  | m, _, [] => m
  | m, i, b :: bs => Memory.writeAll (Memory.write m i b) (i + 1) bs

/-- One read of index `i` after `d` draws: the byte written there, or a fresh draw (70_reset_and_hazards.md R243); and
the number of draws after it. -/
def Memory.read (m : Memory) (i d : Nat) : Byte × Nat :=
  match m.lookup i with
  | some v => (v, d)
  | none => (Config.bufReset d, d + 1)

/-- The reads of `n` indices from `i` on, in index order. -/
def Memory.readSeq (m : Memory) : Nat → Nat → Nat → List Byte × Nat
  | _, 0, d => ([], d)
  | i, n + 1, d =>
    let r := m.read i d
    let rs := Memory.readSeq m (i + 1) n r.2
    (r.1 :: rs.1, rs.2)

/-! ## Results, fatal faults and reset -/

/-- `setResult(kind, exc, bit)`: writes the whole of RESULT (10_state.md R25). -/
def State.setResult (s : State) (kind : ResultKind) (exc : Byte) (bit : Bool) : State :=
  { s with result := { kind := kindCode kind, exc := exc, bit := bit } }

/-- `raise Fatal(cause, info)` (60_exceptions.md R203), and the state it leaves (R205): FATAL, FCAUSE and FINFO exactly,
RX, RXLEN and ARG kept, and TX, TXLEN, DATA, CRC, RESULT and PLD unspecified. TX and DATA become unwritten, so that
each read of them is a free value (log 3). -/
def State.raiseFatal (s : State) (cause : FatalCause) (info : Word) : State :=
  { s with
    status := { s.status with fatal := true, fcause := causeCode cause }
    finfo  := info
    tx     := []
    data   := []
    txlen  := Config.postFault 9 s.draws
    crc    := Config.postFault 16 (s.draws + 1)
    result :=
      { kind := Config.postFault 4 (s.draws + 2)
        exc  := Config.postFault 8 (s.draws + 3)
        bit  := (Config.postFault 1 (s.draws + 4)).getLsbD 0 }
    pld    := { plen := Config.postFault 9 (s.draws + 5), poff := Config.postFault 8 (s.draws + 6) }
    draws  := s.draws + 7 }

/-- Reset (70_reset_and_hazards.md R230), by CTRL.SRST or by hardware, and the only way out of a fatal fault
(60_exceptions.md R207): every register as in 10_state.md R37, PEND discarded, the buffers unwritten. What the host
will do, what it last read and the count of draws are not the block's and stay (log 10). -/
def State.resetBlock (s : State) : State :=
  { State.reset with inputs := s.inputs, rdata := s.rdata, draws := s.draws }

/-! ## The engine's command slot -/

/-- A CMD write hands word `w` to the engine (10_state.md R22): PEND <- w, BUSY <- 1. `latency` host operations at most
come before the engine step (log 5). -/
def State.handCommand (s : State) (w : Word) (latency : Nat) : State :=
  { s with pend := some w, status := { s.status with busy := true }, latency := latency }

/-- The end of the engine step (10_state.md R22): PEND <- none, BUSY <- 0. -/
def State.retire (s : State) : State :=
  { s with pend := none, status := { s.status with busy := false }, latency := 0 }

/-- The outcome with `f` applied to its next state. -/
def afterNext (f : State → State) : Host.Outcome State Fault Refusal → Host.Outcome State Fault Refusal
  | .next s => .next (f s)
  | .fault r => .fault r
  | .refused r => .refused r

/-! ## The pack primitives -/

/-- Appends bytes to TX after the capacity check on their whole length (40_frame_codec.md R110). A failed check is the
fatal cause TX_CAP. -/
def appendBytes (bs : List Byte) (s : State) : Except FatalCause State :=
  if s.txlen.toNat + bs.length > Config.frameCap then .error .txCap
  else .ok { s with tx := s.tx.writeAll s.txlen.toNat bs, txlen := s.txlen + BitVec.ofNat 9 bs.length }

/-- `append(b)` (R110). -/
def append (b : Byte) (s : State) : Except FatalCause State := appendBytes [b] s

/-- The steps of BEGIN_PACK without its setResult (R111): TX[2..255] keep their bytes. -/
def beginPackSteps (sa fc : Byte) (s : State) : State :=
  { s with tx := (s.tx.write 0 sa).write 1 fc, txlen := 2#9 }

/-- The steps of PACK_WORD without its setResult (R113). -/
def packWordSteps (w : Half) (s : State) : Except FatalCause State := appendBytes (wordBytes w) s

/-- The steps of PACK_BYTES without its setResult (R114): the capacity check, then DATA[0..n-1]. -/
def packBytesSteps (n : Nat) (s : State) : Except FatalCause State :=
  if s.txlen.toNat + n > Config.frameCap then .error .txCap
  else
    let r := s.data.readSeq 0 n s.draws
    appendBytes r.1 { s with draws := r.2 }

/-- The steps of END_PACK without its setResult (R115): the CRC of TX[0..TXLEN-1], appended low byte first. -/
def endPackSteps (s : State) : Except FatalCause State :=
  let r := s.tx.readSeq 0 s.txlen.toNat s.draws
  let c := crc16 r.1
  (appendBytes [crcLow c, crcHigh c] { s with draws := r.2 }).map fun t => { t with crc := c }

/-- The end of a pack command or of a request builder with word `w`, started in state `s`: `setResult(OK, 0, 0)` once,
or the fatal fault its first failing step raised (43_request_builders.md R160). After a fault nothing the steps did is
left (60_exceptions.md R205), so the fault is raised in `s` (log 17). -/
def finishPack (w : Word) (s : State) : Except FatalCause State → Host.Outcome State Fault Refusal
  | .ok t => .next (t.setResult .ok 0#8 false)
  | .error cause => .next (s.raiseFatal cause w)

end Sys2Proof.Machine
end

