-- ==== Sys2Proof/Machine/BitPacking.lean ====
section
/-! DEFINITION. Coil bit-field read and write in DATA (41_bit_packing.md). -/

namespace Sys2Proof.Machine

/-- BIT_SET (R131): a read-modify-write of one bit; an unwritten byte is drawn first and then written whole
(70_reset_and_hazards.md R243). -/
def execBitSet (bidx : BitIndex) (cnt : Len) (v : Bool) (s : State) : Host.Outcome State Fault Refusal :=
  if byteIndex bidx ≥ cnt.toNat then .next (s.raiseFatal .bitRange (encode (.bitSet bidx cnt v)))
  else
    let r := s.data.read (byteIndex bidx) s.draws
    .next ({ s with data := s.data.write (byteIndex bidx) (setBit r.1 bidx v), draws := r.2 }.setResult .ok 0#8 false)

/-- BIT_GET (R132). -/
def execBitGet (bidx : BitIndex) (cnt : Len) (s : State) : Host.Outcome State Fault Refusal :=
  if byteIndex bidx ≥ cnt.toNat then .next (s.raiseFatal .bitRange (encode (.bitGet bidx cnt)))
  else
    let r := s.data.read (byteIndex bidx) s.draws
    .next ({ s with draws := r.2 }.setResult .ok 0#8 (getBit r.1 bidx))

end Sys2Proof.Machine
end

