-- ==== Sys2Proof/Machine/Control.lean ====
section
/-! DEFINITION. The control command (44_control.md). -/

namespace Sys2Proof.Machine

/-- NOP (R180): `setResult(OK, 0, 0)` and nothing else. -/
def execNop (s : State) : Host.Outcome State Fault Refusal := .next (s.setResult .ok 0#8 false)

end Sys2Proof.Machine
end

