-- ==== Sys2Proof/Machine/FrameCodec.lean ====
section
/-! DEFINITION. The CRC engine commands and the pack primitives (40_frame_codec.md). The word a fatal fault records is the
command's own (R110); the command has one word, its encoding (log 15). -/

namespace Sys2Proof.Machine

/-- CRC_INIT (R104). -/
def execCrcInit (s : State) : Host.Outcome State Fault Refusal :=
  .next ({ s with crc := Config.crcInit }.setResult .ok 0#8 false)

/-- CRC_FEED (R105). -/
def execCrcFeed (imm8 : Byte) (s : State) : Host.Outcome State Fault Refusal :=
  .next ({ s with crc := crcStep s.crc imm8 }.setResult .ok 0#8 false)

/-- BEGIN_PACK (R111): never faults, any FC. -/
def execBeginPack (sa fc : Byte) (s : State) : Host.Outcome State Fault Refusal :=
  .next ((beginPackSteps sa fc s).setResult .ok 0#8 false)

/-- PACK_BYTE (R112). -/
def execPackByte (imm8 : Byte) (s : State) : Host.Outcome State Fault Refusal :=
  finishPack (encode (.packByte imm8)) s (append imm8 s)

/-- PACK_WORD (R113). -/
def execPackWord (imm16 : Half) (s : State) : Host.Outcome State Fault Refusal :=
  finishPack (encode (.packWord imm16)) s (packWordSteps imm16 s)

/-- PACK_BYTES (R114). -/
def execPackBytes (n9 : Len) (s : State) : Host.Outcome State Fault Refusal :=
  finishPack (encode (.packBytes n9)) s (packBytesSteps n9.toNat s)

/-- END_PACK (R115). -/
def execEndPack (s : State) : Host.Outcome State Fault Refusal :=
  finishPack (encode .endPack) s (endPackSteps s)

end Sys2Proof.Machine
end

