-- ==== Sys2Proof/Machine/Requests.lean ====
section
/-! DEFINITION. The request frame builders (43_request_builders.md): each performs, in one engine step, the primitive steps
its rule lists, and stops at the first that raises a fatal fault (R160). -/

namespace Sys2Proof.Machine

/-- BEGIN_PACK(sa, fc); PACK_WORD(ARG.HI); PACK_WORD(w); END_PACK (R161 to R166). -/
def twoWordRequest (sa fc : Byte) (w : Half) (s : State) : Except FatalCause State :=
  (packWordSteps (argHi s.arg) (beginPackSteps sa fc s)).bind fun s1 =>
  (packWordSteps w s1).bind endPackSteps

/-- BEGIN_PACK(sa, fc); PACK_WORD(ARG.HI); PACK_WORD(ARG.LO); append(n[7:0]); PACK_BYTES(n); END_PACK (R167, R168). -/
def dataRequest (sa fc : Byte) (n : Nat) (s : State) : Except FatalCause State :=
  (packWordSteps (argHi s.arg) (beginPackSteps sa fc s)).bind fun s1 =>
  (packWordSteps (argLo s.arg) s1).bind fun s2 =>
  (append (byteCount n) s2).bind fun s3 =>
  (packBytesSteps n s3).bind endPackSteps

/-- REQ_RD_COILS (R161). -/
def execReqRdCoils (sa : Byte) (s : State) : Host.Outcome State Fault Refusal :=
  finishPack (encode (.reqRdCoils sa)) s (twoWordRequest sa 0x01#8 (argLo s.arg) s)

/-- REQ_RD_DISC (R162). -/
def execReqRdDisc (sa : Byte) (s : State) : Host.Outcome State Fault Refusal :=
  finishPack (encode (.reqRdDisc sa)) s (twoWordRequest sa 0x02#8 (argLo s.arg) s)

/-- REQ_RD_HREGS (R163). -/
def execReqRdHregs (sa : Byte) (s : State) : Host.Outcome State Fault Refusal :=
  finishPack (encode (.reqRdHregs sa)) s (twoWordRequest sa 0x03#8 (argLo s.arg) s)

/-- REQ_RD_IREGS (R164). -/
def execReqRdIregs (sa : Byte) (s : State) : Host.Outcome State Fault Refusal :=
  finishPack (encode (.reqRdIregs sa)) s (twoWordRequest sa 0x04#8 (argLo s.arg) s)

/-- REQ_WR_COIL (R165): ARG.LO is not read. -/
def execReqWrCoil (sa : Byte) (v : Bool) (s : State) : Host.Outcome State Fault Refusal :=
  finishPack (encode (.reqWrCoil sa v)) s (twoWordRequest sa 0x05#8 (coilWord v) s)

/-- REQ_WR_REG (R166). -/
def execReqWrReg (sa : Byte) (s : State) : Host.Outcome State Fault Refusal :=
  finishPack (encode (.reqWrReg sa)) s (twoWordRequest sa 0x06#8 (argLo s.arg) s)

/-- REQ_WR_COILS (R167): n = ceil8(ARG.LO). -/
def execReqWrCoils (sa : Byte) (s : State) : Host.Outcome State Fault Refusal :=
  finishPack (encode (.reqWrCoils sa)) s (dataRequest sa 0x0F#8 (coilBytes (argLo s.arg)) s)

/-- REQ_WR_REGS (R168): n = 2 * ARG.LO. -/
def execReqWrRegs (sa : Byte) (s : State) : Host.Outcome State Fault Refusal :=
  finishPack (encode (.reqWrRegs sa)) s (dataRequest sa 0x10#8 (registerBytes (argLo s.arg)) s)

end Sys2Proof.Machine
end

