-- ==== Sys2Proof/Machine/Validator.lean ====
section
/-! DEFINITION. The frame validator (42_validator.md). Each mention of a buffer byte in a rule's pseudocode is one read of
it, so that a byte not written since reset may differ between two mentions (70_reset_and_hazards.md R243; log 16). -/

namespace Sys2Proof.Machine

/-- The CRC check of a frame RX[0..L-1] with L >= 4 (R141, R142): the recomputed CRC, whether the trailing two bytes
equal it low byte first, and the draws after the reads. -/
def checkCrc (s : State) : Half × Bool × Nat :=
  let body := s.rx.readSeq 0 (s.rxlen.toNat - 2) s.draws
  let low := s.rx.read (s.rxlen.toNat - 2) body.2
  let high := s.rx.read (s.rxlen.toNat - 1) low.2
  let c := crc16 body.1
  (c, decide (low.1 = crcLow c ∧ high.1 = crcHigh c), high.2)

/-- The end of VAL_RESP: PLD and RESULT (R142). -/
def State.finishResponse (s : State) (plen : Len) (poff : Byte) (kind : ResultKind) (exc : Byte) : State :=
  { s with pld := { plen := plen, poff := poff } }.setResult kind exc false

/-- Steps 3 and 4 of VAL_RESP, on a CRC-valid frame (R142): the slave address, then the function code. -/
def checkResponse (sa fc : Byte) (s : State) : State :=
  let a := s.rx.read 0 s.draws
  if a.1 ≠ sa then { s with draws := a.2 }.finishResponse 0#9 0#8 .wrongSlave 0#8
  else
    let f := s.rx.read 1 a.2
    if f.1 = fc then { s with draws := f.2 }.finishResponse (s.rxlen - 4#9) 2#8 .ok 0#8
    else if f.1 = (fc ||| 0x80#8) then
      let e := s.rx.read 2 f.2
      { s with draws := e.2 }.finishResponse 0#9 0#8 .exception e.1
    else { s with draws := f.2 }.finishResponse 0#9 0#8 .malformed 0#8

/-- VAL_CRC (R141). -/
def execValCrc (s : State) : Host.Outcome State Fault Refusal :=
  if s.rxlen.toNat < Config.minFrame then .next (s.setResult .malformed 0#8 false)
  else
    let r := checkCrc s
    let t := { s with crc := r.1, draws := r.2.2 }
    if r.2.1 then .next (t.setResult .ok 0#8 false) else .next (t.setResult .invalidCrc16 0#8 false)

/-- VAL_RESP (R142), its checks in the order of R143. -/
def execValResp (sa fc : Byte) (s : State) : Host.Outcome State Fault Refusal :=
  if s.rxlen.toNat < Config.minFrame then .next (s.finishResponse 0#9 0#8 .malformed 0#8)
  else
    let r := checkCrc s
    let t := { s with crc := r.1, draws := r.2.2 }
    if r.2.1 then .next (checkResponse sa fc t) else .next (t.finishResponse 0#9 0#8 .invalidCrc16 0#8)

end Sys2Proof.Machine
end

