-- ==== Sys2Proof/Machine/Dispatch.lean ====
section
/-! DEFINITION. The meaning of each command, one arm per constructor of Instr. -/

namespace Sys2Proof.Machine

/-- Performs the rule of a command (30_encoding.md R80). -/
def exec (i : Instr) (s : State) : Host.Outcome State Fault Refusal :=
  match i with
  | .nop => Sys2Proof.Machine.execNop s
  | .beginPack sa fc => Sys2Proof.Machine.execBeginPack sa fc s
  | .packByte imm8 => Sys2Proof.Machine.execPackByte imm8 s
  | .packWord imm16 => Sys2Proof.Machine.execPackWord imm16 s
  | .packBytes n9 => Sys2Proof.Machine.execPackBytes n9 s
  | .endPack => Sys2Proof.Machine.execEndPack s
  | .crcInit => Sys2Proof.Machine.execCrcInit s
  | .crcFeed imm8 => Sys2Proof.Machine.execCrcFeed imm8 s
  | .valCrc => Sys2Proof.Machine.execValCrc s
  | .valResp sa fc => Sys2Proof.Machine.execValResp sa fc s
  | .bitSet bidx cnt v => Sys2Proof.Machine.execBitSet bidx cnt v s
  | .bitGet bidx cnt => Sys2Proof.Machine.execBitGet bidx cnt s
  | .reqRdCoils sa => Sys2Proof.Machine.execReqRdCoils sa s
  | .reqRdDisc sa => Sys2Proof.Machine.execReqRdDisc sa s
  | .reqRdHregs sa => Sys2Proof.Machine.execReqRdHregs sa s
  | .reqRdIregs sa => Sys2Proof.Machine.execReqRdIregs sa s
  | .reqWrCoil sa v => Sys2Proof.Machine.execReqWrCoil sa v s
  | .reqWrReg sa => Sys2Proof.Machine.execReqWrReg sa s
  | .reqWrCoils sa => Sys2Proof.Machine.execReqWrCoils sa s
  | .reqWrRegs sa => Sys2Proof.Machine.execReqWrRegs sa s

end Sys2Proof.Machine
end

