-- ==== Sys2Proof/Machine/HostBus.lean ====
section
/-! DEFINITION. The host's side (20_memory.md): the register map, legal accesses, read values and write effects, the
host protocol (70_reset_and_hazards.md R240), and the pseudo-instructions (44_control.md R181 to R185). -/

namespace Sys2Proof.Machine

/-- The registers (10_state.md R23). -/
inductive Reg where
  | cmd | arg | status | result | crc | txlen | rxlen | pld | ctrl | finfo
  deriving DecidableEq, Repr

/-- The three byte buffers (10_state.md R34). -/
inductive Buffer where
  | tx | rx | data
  deriving DecidableEq, Repr

/-- What an offset reaches (R23). -/
inductive Region where
  /-- A register. -/
  | reg (r : Reg)
  /-- A reserved offset of the register region. -/
  | reserved
  /-- Index `i` of a buffer, through its window. -/
  | window (b : Buffer) (i : Nat)
  deriving DecidableEq, Repr

/-- The offset of each register (R23). -/
def regOffset : Reg → Offset
  | .cmd => 0x000#10
  | .arg => 0x004#10
  | .status => 0x008#10
  | .result => 0x00C#10
  | .crc => 0x010#10
  | .txlen => 0x014#10
  | .rxlen => 0x018#10
  | .pld => 0x01C#10
  | .ctrl => 0x020#10
  | .finfo => 0x024#10

/-- The offset of index 0 of each buffer's window (R23). -/
def windowBase : Buffer → Nat
  | .tx => 0x100
  | .rx => 0x200
  | .data => 0x300

/-- The register at an offset of the register region, or a reserved offset (R23). -/
def registerAt (off : Nat) : Region :=
  match off with
  | 0x000 => .reg .cmd
  | 0x004 => .reg .arg
  | 0x008 => .reg .status
  | 0x00C => .reg .result
  | 0x010 => .reg .crc
  | 0x014 => .reg .txlen
  | 0x018 => .reg .rxlen
  | 0x01C => .reg .pld
  | 0x020 => .reg .ctrl
  | 0x024 => .reg .finfo
  | _ => .reserved

/-- The region that contains an offset (R23, R50). -/
def regionOf (off : Offset) : Region :=
  if off.toNat < 0x100 then registerAt off.toNat
  else if off.toNat < 0x200 then .window .tx (off.toNat - 0x100)
  else if off.toNat < 0x300 then .window .rx (off.toNat - 0x200)
  else .window .data (off.toNat - 0x300)

/-- R52: a window access is legal when off % n = 0, a register access when n = 4 and off % 4 = 0. -/
def legalAccess (off : Offset) (width : Width) : Bool :=
  if off.toNat < 0x100 then width == .word && off.toNat % 4 == 0 else off.toNat % width.bytes == 0

/-- A buffer's contents. -/
def State.buffer (s : State) : Buffer → Memory
  | .tx => s.tx
  | .rx => s.rx
  | .data => s.data

/-- What a register reads as (R58): CMD and CTRL as 0, the others as their value, reserved bits 0. -/
def State.regValue (s : State) : Reg → Word
  | .cmd => 0#32
  | .arg => s.arg
  | .status => statusWord s.status
  | .result => resultWord s.result
  | .crc => s.crc.setWidth 32
  | .txlen => s.txlen.setWidth 32
  | .rxlen => s.rxlen.setWidth 32
  | .pld => pldWord s.pld
  | .ctrl => 0#32
  | .finfo => s.finfo

/-- The value of a legal read, and the draws after it (R54, R58). -/
def State.busRead (s : State) (off : Offset) (width : Width) : Word × Nat :=
  match regionOf off with
  | .reg r => (s.regValue r, s.draws)
  | .reserved => (0#32, s.draws)
  | .window b i =>
    let r := (s.buffer b).readSeq i width.bytes s.draws
    (leValue r.1, r.2)

/-- A legal read that the host protocol allows: the bus returns its value and no state of the block changes (R58). -/
def State.hostRead (s : State) (off : Offset) (width : Width) : State :=
  { s with rdata := some (s.busRead off width).1, draws := (s.busRead off width).2 }

/-- A write of RXLEN (10_state.md R28): above 256, on all 32 bits, the fatal fault RX_CAP (60_exceptions.md R204). -/
def State.writeRxlen (s : State) (v : Word) : State :=
  if v.toNat > Config.frameCap then s.raiseFatal .rxCap v else { s with rxlen := v.setWidth 9 }

/-- A write of CTRL (10_state.md R32): bit 0 resets the block, the other bits are ignored. -/
def State.writeCtrl (s : State) (v : Word) : State :=
  if v.getLsbD 0 then s.resetBlock else s

/-- A write of CMD that the host protocol allows (10_state.md R22): the engine step comes after a number of host
operations that is a free value of its own for each command (log 5). -/
def State.writeCmd (s : State) (v : Word) : State :=
  { s with draws := s.draws + 1 }.handCommand v (Config.cmdLatency s.draws)

/-- The effect of a legal write when FATAL = 0 (R59). -/
def State.writeEffect (s : State) (off : Offset) (width : Width) (v : Word) : State :=
  match regionOf off with
  | .reg .cmd => s.writeCmd v
  | .reg .arg => { s with arg := v }
  | .reg .rxlen => s.writeRxlen v
  | .reg .ctrl => s.writeCtrl v
  | .reg .status => s
  | .reg .result => s
  | .reg .crc => s
  | .reg .txlen => s
  | .reg .pld => s
  | .reg .finfo => s
  | .reserved => s
  | .window .tx _ => s
  | .window .rx i => { s with rx := s.rx.writeAll i (leBytes width.bytes v) }
  | .window .data i => { s with data := s.data.writeAll i (leBytes width.bytes v) }

/-- A legal write that the host protocol allows (R59). While FATAL = 1 only a CTRL write has an effect (60_exceptions.md
R206). -/
def State.hostWrite (s : State) (off : Offset) (width : Width) (v : Word) : State :=
  if s.status.fatal && regionOf off != .reg .ctrl then s else s.writeEffect off width v

/-- A command is in the engine: BUSY = 1 on a block that is not halted (10_state.md R22, 60_exceptions.md R206; log 9). -/
def State.engineActive (s : State) : Bool := s.status.busy && !s.status.fatal

/-- R240: while a command is in the engine the host may only read STATUS. -/
def State.mayRead (s : State) (off : Offset) : Bool := !s.engineActive || regionOf off == .reg .status

/-- R240: while a command is in the engine the host may only write CTRL. -/
def State.mayWrite (s : State) (off : Offset) : Bool := !s.engineActive || regionOf off == .reg .ctrl

/-- An access goes on to `t` where it is legal (R52) and the host protocol allows it (R240), and is otherwise the host's
fault. The legality of the access is checked first (log 8). -/
def guardAccess (off : Offset) (width : Width) (allowed : Bool) (t : State) : Host.Outcome State Fault Refusal :=
  if !legalAccess off width then .fault (.hostAccessError off width)
  else if !allowed then .fault .hostProtocolViolation
  else .next t

/-- The state with operations of the host put before the inputs still to come. -/
def State.pushOps (s : State) (ops : List HostOp) : State :=
  { s with inputs := ops.map (Input.access .host) ++ s.inputs }

/-- The byte reads of `rdtx` on a frame of `n` bytes: `rdb 0x100 + k` for k = 0 .. n-1 (R185). -/
def txReads (n : Nat) : List HostOp := (List.range n).map fun k => .read (BitVec.ofNat 10 (0x100 + k)) .byte

/-- One operation of the host, taken from the head of its program (R181 to R185). `poll` reads STATUS and, while it
reads BUSY = 1, stays the next operation; `rdtx` reads TXLEN, and the byte reads it expands to come next. -/
def hostStep (op : HostOp) (s : State) : Host.Outcome State Fault Refusal :=
  match op with
  | .write off width v => guardAccess off width (s.mayWrite off) (s.hostWrite off width v)
  | .read off width => guardAccess off width (s.mayRead off) (s.hostRead off width)
  | .poll =>
    guardAccess (regOffset .status) .word (s.mayRead (regOffset .status))
      ((s.hostRead (regOffset .status) .word).pushOps (if s.status.busy then [.poll] else []))
  | .rdtx =>
    guardAccess (regOffset .txlen) .word (s.mayRead (regOffset .txlen))
      ((s.hostRead (regOffset .txlen) .word).pushOps (txReads s.txlen.toNat))

/-- One input: an operation of the host, an access of a second agent, which is refused (R63), or a hardware reset
(R230). -/
def inputStep (i : Input) (s : State) : Host.Outcome State Fault Refusal :=
  match i with
  | .access .host op => hostStep op s
  | .access .other _ => .refused .secondHostAgent
  | .hardwareReset => .next s.resetBlock

/-! ## Pseudo-instructions (44_control.md R184, R185) -/

/-- `wr NAME, v`: a 32-bit write of a register. -/
def wrReg (r : Reg) (v : Word) : HostOp := .write (regOffset r) .word v

/-- `rd NAME`: a 32-bit read of a register. -/
def rdReg (r : Reg) : HostOp := .read (regOffset r) .word

/-- `cmd MNEMONIC operands`: `wr CMD, enc(...)`, then `poll` (R184). -/
def cmdOps (i : Instr) : List HostOp := [wrReg .cmd (encode i), .poll]

/-- The byte writes `wrb base + i, b` of a buffer window from index `i` on (R185). DESIGN CHOICE (safe, log 19): an offset
past 0x3FF, outside the offsets of 20_memory.md R50, is taken modulo 1024; the first such write is then a byte write of
offset 0x000, an access error, so a list that leaves the offset space stops there. -/
def bufferWrites (b : Buffer) : Nat → List Byte → List HostOp
  | _, [] => []
  | i, x :: xs => .write (BitVec.ofNat 10 (windowBase b + i)) .byte (x.setWidth 32) :: bufferWrites b (i + 1) xs

/-- `ldbuf B, b0 b1 ...` (R185); past the end of the offset space, log 19. -/
def ldbufOps (b : Buffer) (bytes : List Byte) : List HostOp := bufferWrites b 0 bytes

/-- `ldrx b0 b1 ...`: the bytes, then RXLEN (R185). -/
def ldrxOps (bytes : List Byte) : List HostOp := ldbufOps .rx bytes ++ [wrReg .rxlen (BitVec.ofNat 32 bytes.length)]

end Sys2Proof.Machine
end

