-- ==== Sys2Proof/Machine/Engine.lean ====
section
/-! DEFINITION. The engine step (10_state.md R22, 30_encoding.md R80), and which agent moves next (20_memory.md R62,
70_reset_and_hazards.md R250). -/

namespace Sys2Proof.Machine

/-- An illegal word (30_encoding.md R75): `setResult(ILLEGAL_CMD, 0, 0)` and nothing else. -/
def rejectWord (s : State) : Host.Outcome State Fault Refusal := .next (s.setResult .illegalCmd 0#8 false)

/-- `execute(w)` (R80). -/
def executeWord (w : Word) (s : State) : Host.Outcome State Fault Refusal :=
  match decode w with
  | .ok i => exec i s
  | .error _ => rejectWord s

/-- The engine step (R22): execute(PEND), then PEND <- none and BUSY <- 0. PEND holds a word whenever BUSY = 1; in a
state no run reaches where it does not, only BUSY is cleared (log 9). -/
def engineStep (s : State) : Host.Outcome State Fault Refusal :=
  match s.pend with
  | some w => afterNext State.retire (executeWord w s)
  | none => .next s.retire

/-- The engine moves next: a command is in it, and no host operation comes before its step any more, because the latency
has run out or the host has nothing left to do. So the engine step is taken in every run (R250; log 5). -/
def State.engineTurn (s : State) : Bool := s.engineActive && (s.latency == 0 || s.inputs.isEmpty)

/-- The state with its first input taken: one host operation less comes before the engine step. -/
def State.takeInput (s : State) : State := { s with inputs := s.inputs.tail, latency := s.latency - 1 }

/-- The state in which the engine step on word `w` comes next. A halted block executes nothing (60_exceptions.md R206),
so FATAL and FCAUSE are 0 in it. -/
def State.withPending (s : State) (w : Word) : State :=
  { s with status := { s.status with fatal := false, fcause := 0#4 } }.handCommand w 0

end Sys2Proof.Machine
end

