-- ==== Sys2Proof/Machine/Step.lean ====
section
/-! DEFINITION. One step of the machine. -/

namespace Sys2Proof.Machine

/-- One step: the engine's where it is the engine's turn, else the next input's; with neither, the block waits (log 4). -/
def step (s : State) : Host.Outcome State Fault Refusal :=
  if s.engineTurn then engineStep s
  else
    match s.inputs with
    | [] => .next s
    | i :: _ => inputStep i s.takeInput

/-- The state in which the very next step runs the command whose word is `w`, given as a number of `nbits` bits: that
word is pending in the engine, as after a CMD write (10_state.md R22; log 14). -/
def State.withFetchWord (s : State) (nbits w : Nat) : State := s.withPending (BitVec.ofNat 32 (w % 2 ^ nbits))

end Sys2Proof.Machine
end

