-- ==== Sys2Proof/Safety.lean ====
section
/-! DEFINITION. The terms claims use: the invariant of the machine, what a buffer holds and what a read of it may return, a
CRC-valid frame, a run of commands without a fault, and the rows of the opcode table. -/

namespace Sys2Proof.Machine

/-! ## Buffers -/

/-- The bytes `bs` are written at the indices from `i` on. -/
def Memory.holds (m : Memory) (i : Nat) (bs : List Byte) : Prop := ∀ k b, bs[k]? = some b → m.lookup (i + k) = some b

/-- Reads of the indices from `i` on may return `bs`: each written byte as it is, each unwritten byte any value
(70_reset_and_hazards.md R243). -/
def Memory.mayRead (m : Memory) (i : Nat) (bs : List Byte) : Prop :=
  ∀ k b v, bs[k]? = some b → m.lookup (i + k) = some v → b = v

/-- Buffer `m'` differs from `m` at most in the `n` indices from `i` on. -/
def Memory.sameOutside (m m' : Memory) (i n : Nat) : Prop := ∀ a, a < i ∨ i + n ≤ a → m'.lookup a = m.lookup a

/-! ## Frames -/

/-- A CRC-valid frame (42_validator.md R140). -/
abbrev CrcValid (f : List Byte) : Prop :=
  4 ≤ f.length ∧ f[f.length - 2]? = some (crcLow (crc16 (f.take (f.length - 2)))) ∧
    f[f.length - 1]? = some (crcHigh (crc16 (f.take (f.length - 2))))

/-- A sequence with the CRC bytes of END_PACK appended (40_frame_codec.md R115). -/
def withCrc (body : List Byte) : List Byte := body ++ [crcLow (crc16 body), crcHigh (crc16 body)]

/-- The sequence with bit `j` of byte `k` flipped. -/
def flipBit (f : List Byte) (k j : Nat) : List Byte := f.modify k fun b => b ^^^ (1#8 <<< j)

/-! ## Results -/

/-- RESULT with KIND = OK and the other fields 0: what `setResult(OK, 0, 0)` leaves (10_state.md R25). -/
def okResult : Result := { kind := kindCode .ok, exc := 0#8, bit := false }

/-- A RESULT that `setResult` can leave after a command: EXC only with EXCEPTION, BIT only with OK, OVERFLOW and the
reserved kinds never (10_state.md R25). -/
abbrev Result.legal (r : Result) : Prop :=
  r.kind.toNat ≤ 5 ∧ (r.exc ≠ 0#8 → r.kind = kindCode .exception) ∧ (r.bit = true → r.kind = kindCode .ok)

/-- A PLD that VAL_RESP can leave (10_state.md R29). -/
abbrev Pld.legal (p : Pld) : Prop := (p.plen = 0#9 ∧ p.poff = 0#8) ∨ (p.plen.toNat ≤ 252 ∧ p.poff = 2#8)

/-! ## The invariant -/

/-- What holds in every state a run reaches. -/
structure State.Inv (s : State) : Prop where
  /-- The buffers keep their canonical form. -/
  txWf : s.tx.wf = true
  rxWf : s.rx.wf = true
  dataWf : s.data.wf = true
  /-- PEND holds a word exactly while BUSY = 1 (R22). -/
  pendBusy : s.status.busy = s.pend.isSome
  /-- A halted block is not busy (60_exceptions.md R203, R206). -/
  haltedIdle : s.status.fatal = true → s.status.busy = false
  /-- No latency is left over without a command (log 5). -/
  idleLatency : s.status.busy = false → s.latency = 0
  /-- FCAUSE is one of the three causes exactly while FATAL = 1 (60_exceptions.md R202). -/
  cause : s.status.fatal = true ↔ s.status.fcause ≠ 0#4
  causeKnown : s.status.fcause.toNat ≤ 3
  /-- FINFO is written by a fatal fault alone (R33). -/
  finfoClear : s.status.fatal = false → s.finfo = 0#32
  /-- RXLEN <= 256 (R35), after a fatal fault too (60_exceptions.md R205). -/
  rxlenCap : s.rxlen.toNat ≤ 256
  /-- TXLEN <= 256 while FATAL = 0 (R35). -/
  txlenCap : s.status.fatal = false → s.txlen.toNat ≤ 256
  /-- The frame TX[0..TXLEN-1] has been written since reset. -/
  txWritten : s.status.fatal = false → ∀ k, k < s.txlen.toNat → (s.tx.lookup k).isSome = true
  /-- RESULT and PLD hold what a command records (R25, R29). -/
  resultLegal : s.status.fatal = false → s.result.legal
  pldLegal : s.status.fatal = false → s.pld.legal

/-- The registers and buffers right after a reset (10_state.md R37). -/
def State.afterReset (s : State) : Prop :=
  s.arg = 0#32 ∧ statusWord s.status = 0#32 ∧ resultWord s.result = 0#32 ∧ s.crc = 0xFFFF#16 ∧ s.txlen = 0#9 ∧
    s.rxlen = 0#9 ∧ pldWord s.pld = 0#32 ∧ s.finfo = 0#32 ∧ s.pend = none ∧
    ∀ i, s.tx.lookup i = none ∧ s.rx.lookup i = none ∧ s.data.lookup i = none

/-! ## Runs -/

/-- `k` steps, stopping at the first fault or refusal. -/
def runSteps : Nat → State → Host.Outcome State Fault Refusal
  | 0, s => .next s
  | k + 1, s =>
    match step s with
    | .next t => runSteps k t
    | .fault r => .fault r
    | .refused r => .refused r

/-- The state after a list of commands, each performed in turn; none where one of them does not complete. -/
def runCommands : List Instr → State → Option State
  | [], s => some s
  | i :: is, s =>
    match exec i s with
    | .next t => if t.status.fatal then none else runCommands is t
    | .fault _ => none
    | .refused _ => none

/-- The pack commands that a frame's payload is built with (40_frame_codec.md R116). -/
def packsPayload : Instr → Bool
  | .nop => false
  | .beginPack _ _ => false
  | .packByte _ => true
  | .packWord _ => true
  | .packBytes _ => true
  | .endPack => false
  | .crcInit => false
  | .crcFeed _ => false
  | .valCrc => false
  | .valResp _ _ => false
  | .bitSet _ _ _ => false
  | .bitGet _ _ => false
  | .reqRdCoils _ => false
  | .reqRdDisc _ => false
  | .reqRdHregs _ => false
  | .reqRdIregs _ => false
  | .reqWrCoil _ _ => false
  | .reqWrReg _ => false
  | .reqWrCoils _ => false
  | .reqWrRegs _ => false

/-- The request builders (43_request_builders.md). -/
def isRequest : Instr → Bool
  | .nop => false
  | .beginPack _ _ => false
  | .packByte _ => false
  | .packWord _ => false
  | .packBytes _ => false
  | .endPack => false
  | .crcInit => false
  | .crcFeed _ => false
  | .valCrc => false
  | .valResp _ _ => false
  | .bitSet _ _ _ => false
  | .bitGet _ _ => false
  | .reqRdCoils _ => true
  | .reqRdDisc _ => true
  | .reqRdHregs _ => true
  | .reqRdIregs _ => true
  | .reqWrCoil _ _ => true
  | .reqWrReg _ => true
  | .reqWrCoils _ => true
  | .reqWrRegs _ => true

/-- The commands that can raise a fatal fault (60_exceptions.md R202). -/
def mayFault : Instr → Bool
  | .nop => false
  | .beginPack _ _ => false
  | .packByte _ => true
  | .packWord _ => true
  | .packBytes _ => true
  | .endPack => true
  | .crcInit => false
  | .crcFeed _ => false
  | .valCrc => false
  | .valResp _ _ => false
  | .bitSet _ _ _ => true
  | .bitGet _ _ => true
  | .reqRdCoils _ => false
  | .reqRdDisc _ => false
  | .reqRdHregs _ => false
  | .reqRdIregs _ => false
  | .reqWrCoil _ _ => false
  | .reqWrReg _ => false
  | .reqWrCoils _ => true
  | .reqWrRegs _ => true

/-- The commands that write TX and TXLEN (10_state.md R36). -/
def writesTx : Instr → Bool
  | .nop => false
  | .beginPack _ _ => true
  | .packByte _ => true
  | .packWord _ => true
  | .packBytes _ => true
  | .endPack => true
  | .crcInit => false
  | .crcFeed _ => false
  | .valCrc => false
  | .valResp _ _ => false
  | .bitSet _ _ _ => false
  | .bitGet _ _ => false
  | .reqRdCoils _ => true
  | .reqRdDisc _ => true
  | .reqRdHregs _ => true
  | .reqRdIregs _ => true
  | .reqWrCoil _ _ => true
  | .reqWrReg _ => true
  | .reqWrCoils _ => true
  | .reqWrRegs _ => true

/-- The commands that write CRC (10_state.md R26, R36). -/
def writesCrc : Instr → Bool
  | .nop => false
  | .beginPack _ _ => false
  | .packByte _ => false
  | .packWord _ => false
  | .packBytes _ => false
  | .endPack => true
  | .crcInit => true
  | .crcFeed _ => true
  | .valCrc => true
  | .valResp _ _ => true
  | .bitSet _ _ _ => false
  | .bitGet _ _ => false
  | .reqRdCoils _ => true
  | .reqRdDisc _ => true
  | .reqRdHregs _ => true
  | .reqRdIregs _ => true
  | .reqWrCoil _ _ => true
  | .reqWrReg _ => true
  | .reqWrCoils _ => true
  | .reqWrRegs _ => true

/-- The command that writes PLD (10_state.md R29, R36). -/
def writesPld : Instr → Bool
  | .nop => false
  | .beginPack _ _ => false
  | .packByte _ => false
  | .packWord _ => false
  | .packBytes _ => false
  | .endPack => false
  | .crcInit => false
  | .crcFeed _ => false
  | .valCrc => false
  | .valResp _ _ => true
  | .bitSet _ _ _ => false
  | .bitGet _ _ => false
  | .reqRdCoils _ => false
  | .reqRdDisc _ => false
  | .reqRdHregs _ => false
  | .reqRdIregs _ => false
  | .reqWrCoil _ _ => false
  | .reqWrReg _ => false
  | .reqWrCoils _ => false
  | .reqWrRegs _ => false

/-- The command that writes DATA (10_state.md R34, R36). -/
def writesData : Instr → Bool
  | .nop => false
  | .beginPack _ _ => false
  | .packByte _ => false
  | .packWord _ => false
  | .packBytes _ => false
  | .endPack => false
  | .crcInit => false
  | .crcFeed _ => false
  | .valCrc => false
  | .valResp _ _ => false
  | .bitSet _ _ _ => true
  | .bitGet _ _ => false
  | .reqRdCoils _ => false
  | .reqRdDisc _ => false
  | .reqRdHregs _ => false
  | .reqRdIregs _ => false
  | .reqWrCoil _ _ => false
  | .reqWrReg _ => false
  | .reqWrCoils _ => false
  | .reqWrRegs _ => false

/-- The four bytes of ARG in a request frame: start address, then quantity or value, each high byte first. -/
def argBytes (arg : Word) : List Byte :=
  [arg.extractLsb' 24 8, arg.extractLsb' 16 8, arg.extractLsb' 8 8, arg.extractLsb' 0 8]

/-- How many data bytes a request takes from DATA (43_request_builders.md R167, R168). -/
def requestData (i : Instr) (arg : Word) : Nat :=
  match i with
  | .reqWrCoils _ => ((arg.extractLsb' 0 16).toNat + 7) / 8
  | .reqWrRegs _ => 2 * (arg.extractLsb' 0 16).toNat
  | _ => 0

/-- BEGIN_PACK, two PACK_WORDs and END_PACK (43_request_builders.md R161 to R166). -/
def twoWordCommands (sa fc : Byte) (hi lo : Half) : List Instr :=
  [.beginPack sa fc, .packWord hi, .packWord lo, .endPack]

/-- The same with a byte count and `n` bytes of DATA before END_PACK (43_request_builders.md R167, R168). -/
def dataCommands (sa fc : Byte) (hi lo : Half) (n : Nat) : List Instr :=
  [.beginPack sa fc, .packWord hi, .packWord lo, .packByte (BitVec.ofNat 8 n), .packBytes (BitVec.ofNat 9 n), .endPack]

/-- The primitive commands whose steps a request performs with a given ARG (43_request_builders.md R160); none for the
other commands. -/
def requestCommands (i : Instr) (arg : Word) : List Instr :=
  match i with
  | .reqRdCoils sa => twoWordCommands sa 0x01#8 (arg.extractLsb' 16 16) (arg.extractLsb' 0 16)
  | .reqRdDisc sa => twoWordCommands sa 0x02#8 (arg.extractLsb' 16 16) (arg.extractLsb' 0 16)
  | .reqRdHregs sa => twoWordCommands sa 0x03#8 (arg.extractLsb' 16 16) (arg.extractLsb' 0 16)
  | .reqRdIregs sa => twoWordCommands sa 0x04#8 (arg.extractLsb' 16 16) (arg.extractLsb' 0 16)
  | .reqWrCoil sa v => twoWordCommands sa 0x05#8 (arg.extractLsb' 16 16) (if v then 0xFF00#16 else 0x0000#16)
  | .reqWrReg sa => twoWordCommands sa 0x06#8 (arg.extractLsb' 16 16) (arg.extractLsb' 0 16)
  | .reqWrCoils sa => dataCommands sa 0x0F#8 (arg.extractLsb' 16 16) (arg.extractLsb' 0 16) (requestData i arg)
  | .reqWrRegs sa => dataCommands sa 0x10#8 (arg.extractLsb' 16 16) (arg.extractLsb' 0 16) (requestData i arg)
  | _ => []

/-! ## Host accesses -/

/-- The host program's next operation is `op`, it is not the engine's turn, and `rest` comes after it. -/
abbrev State.hostNext (s : State) (op : HostOp) (rest : List Input) : Prop :=
  s.inputs = .access .host op :: rest ∧ s.engineTurn = false

/-- No command is in the engine and the block is not halted. -/
abbrev State.idle (s : State) : Prop := s.status.busy = false ∧ s.status.fatal = false

/-- An access is legal (20_memory.md R52), in numbers. -/
abbrev LegalAccess (off : Offset) (width : Width) : Prop :=
  (off.toNat < 0x100 → width = .word ∧ off.toNat % 4 = 0) ∧ (0x100 ≤ off.toNat → off.toNat % width.bytes = 0)

/-! ## The opcode table -/

/-- A row of spec/opcode_table.json: a word selects it when `w & mask == pattern` (30_encoding.md R81). -/
structure OpcodeRow where
  op : Opcode
  mask : Word
  pattern : Word
  deriving DecidableEq, Repr

/-- The rows of spec/opcode_table.json. -/
def opcodeRows : List OpcodeRow :=
  [ ⟨.nop, 0xFFFFFFFF#32, 0x00000000#32⟩, ⟨.beginPack, 0xFF0000FF#32, 0x00000001#32⟩,
    ⟨.packByte, 0xFFFF00FF#32, 0x00000002#32⟩, ⟨.packWord, 0xFF0000FF#32, 0x00000003#32⟩,
    ⟨.packBytes, 0xFFFE00FF#32, 0x00000004#32⟩, ⟨.endPack, 0xFFFFFFFF#32, 0x00000005#32⟩,
    ⟨.crcInit, 0xFFFFFFFF#32, 0x00000008#32⟩, ⟨.crcFeed, 0xFFFF00FF#32, 0x00000009#32⟩,
    ⟨.valCrc, 0xFFFFFFFF#32, 0x00000010#32⟩, ⟨.valResp, 0xFF0000FF#32, 0x00000011#32⟩ ] ++
  [ ⟨.bitSet, 0xE00000FF#32, 0x00000018#32⟩, ⟨.bitGet, 0xE00000FF#32, 0x00000019#32⟩,
    ⟨.reqRdCoils, 0xFFFF00FF#32, 0x00000021#32⟩, ⟨.reqRdDisc, 0xFFFF00FF#32, 0x00000022#32⟩,
    ⟨.reqRdHregs, 0xFFFF00FF#32, 0x00000023#32⟩, ⟨.reqRdIregs, 0xFFFF00FF#32, 0x00000024#32⟩,
    ⟨.reqWrCoil, 0xFFFE00FF#32, 0x00000025#32⟩, ⟨.reqWrReg, 0xFFFF00FF#32, 0x00000026#32⟩,
    ⟨.reqWrCoils, 0xFFFF00FF#32, 0x0000002F#32⟩, ⟨.reqWrRegs, 0xFFFF00FF#32, 0x00000030#32⟩ ]

/-- The fields of a word that selects a row are inside 30_encoding.md R74. -/
def fieldsInRange (op : Opcode) (w : Word) : Bool :=
  match op with
  | .packBytes => decide ((w.extractLsb' 8 9).toNat ≤ 256)
  | .bitSet => decide ((w.extractLsb' 19 9).toNat ≤ 256)
  | .bitGet => decide ((w.extractLsb' 19 9).toNat ≤ 256) && !w.getLsbD 28
  | _ => true

end Sys2Proof.Machine
end

