-- ==== Sys2Proof/Certificates/Slice0/Obligations.lean ====
section
/-! DEFINITION. The statements for the provers, in the order of OBLIGATIONS.json. A docstring names the rule a statement
formalises, or says that it rests on a choice of the model. -/

open Sys2Proof Sys2Proof.Machine

/-! ## Encoding (30_encoding.md) -/

/-- Decoding the word of a well-formed command gives the command back, at every value of its operands (R71 to R74, R82). -/
def Obligations.DecodeOfEncode : Prop := ∀ i : Instr, i.wf = true → decode (encode i) = .ok i

/-- A legal word is the encoding of the command it decodes to, and that command is well formed: each command has one word
(R75, R82). -/
def Obligations.EncodeOfDecode : Prop := ∀ (w : Word) (i : Instr), decode w = .ok i → encode i = w ∧ i.wf = true

/-- R81: the decoder reads the rows of opcode_table.json. A word that selects a row by mask and match is that row's command
where its fields are inside R74 and is illegal where they are not; a word that selects no row is illegal. -/
def Obligations.DecoderReadsOpcodeTable : Prop :=
  ∀ w : Word,
    (∀ r ∈ opcodeRows, w &&& r.mask = r.pattern →
      (fieldsInRange r.op w = true → ∃ i, decode w = .ok i ∧ opcode i = r.op) ∧
      (fieldsInRange r.op w = false → decode w = .error .fieldRange)) ∧
    ((∀ r ∈ opcodeRows, w &&& r.mask ≠ r.pattern) →
      decode w = .error .reservedOpcode ∨ decode w = .error .reservedBits)

/-- The words of the examples of R82, one or more for each format. -/
def Obligations.ExampleWordsDecode : Prop :=
  decode 0x00000005#32 = .ok .endPack ∧ decode 0x00002A02#32 = .ok (.packByte 0x2A#8) ∧
    decode 0x00030101#32 = .ok (.beginPack 1#8 3#8) ∧ decode 0x00123403#32 = .ok (.packWord 0x1234#16) ∧
    decode 0x00000204#32 = .ok (.packBytes 2#9) ∧ decode 0x10100918#32 = .ok (.bitSet 9#11 2#9 true) ∧
    decode 0x00000123#32 = .ok (.reqRdHregs 1#8) ∧ decode 0x00011125#32 = .ok (.reqWrCoil 0x11#8 true)

/-! ## Control (44_control.md) -/

/-- R180, R76: NOP records OK and changes nothing else; of the words with OP = 0x00 only 0x00000000 is legal. -/
def Obligations.NopRecordsOkOnly : Prop :=
  (∀ s : State, exec .nop s = .next { s with result := okResult }) ∧
    ∀ (w : Word) (i : Instr), opField w = 0x00#8 → (decode w = .ok i ↔ w = 0x00000000#32 ∧ i = .nop)

/-! ## The CRC (40_frame_codec.md) -/

/-- R106 item 3: the table form of one byte step equals the bit-at-a-time form: XOR the byte into the accumulator, then
eight times shift it right by one and, where the bit shifted out is 1, XOR 0xA001, the polynomial of 00_scope.md R3 written
out (90_conflicts.md C1). -/
def Obligations.TableStepEqualsBitSteps : Prop :=
  ∀ (acc : Half) (b : Byte),
    crcStep acc b =
      Nat.repeat (fun t : Half => (t >>> 1) ^^^ (if t.getLsbD 0 then 0xA001#16 else 0x0000#16)) 8
        (acc ^^^ b.setWidth 16)

/-- R106 item 1: the CRC of a sequence followed by its CRC bytes, low byte first, is 0. -/
def Obligations.CrcResidueIsZero : Prop := ∀ body : List Byte, crc16 (withCrc body) = 0x0000#16

/-- R106 item 2, on VAL_CRC: a CRC-valid frame in RX validates, and the same frame with any one bit flipped does not. -/
def Obligations.SingleBitErrorIsDetected : Prop :=
  ∀ (s u : State) (f : List Byte) (k j : Nat),
    CrcValid f → f.length = s.rxlen.toNat → s.rx.holds 0 f → k < f.length → j < 8 →
    u.rxlen = s.rxlen → u.rx.holds 0 (flipBit f k j) →
    (∃ t, exec .valCrc s = .next t ∧ t.result = okResult) ∧
      ∃ t, exec .valCrc u = .next t ∧ t.result = { kind := kindCode .invalidCrc16, exc := 0#8, bit := false }

/-- R104, R105: CRC_INIT and CRC_FEED, their effect, their frame and their words. -/
def Obligations.CrcCommandEffects : Prop :=
  (∀ s : State, exec .crcInit s = .next { s with crc := 0xFFFF#16, result := okResult }) ∧
    encode .crcInit = 0x00000008#32 ∧
    (∀ (b : Byte) (s : State),
      exec (.crcFeed b) s =
        .next { s with
          crc := (s.crc >>> 8) ^^^ crcTable (((s.crc ^^^ b.setWidth 16) &&& 0x00FF#16).setWidth 8)
          result := okResult }) ∧
    ∀ b : Byte, encode (.crcFeed b) = (b.setWidth 32 <<< 8) ||| 0x09#32

/-- The streaming use of R105: CRC_INIT and then CRC_FEED of a sequence leave its CRC, and change RESULT alone beside. -/
def Obligations.CrcStreamGivesCrc16 : Prop :=
  ∀ (bytes : List Byte) (s : State), s.status.fatal = false →
    runCommands (.crcInit :: bytes.map .crcFeed) s = some { s with crc := crc16 bytes, result := okResult }

/-! ## The pack primitives (40_frame_codec.md) -/

/-- R111: BEGIN_PACK starts a frame with the address and the function code, whatever they are. -/
def Obligations.BeginPackEffect : Prop :=
  ∀ (sa fc : Byte) (s : State),
    encode (.beginPack sa fc) = (fc.setWidth 32 <<< 16) ||| (sa.setWidth 32 <<< 8) ||| 0x01#32 ∧
    ∃ t, exec (.beginPack sa fc) s = .next t ∧ t.tx.holds 0 [sa, fc] ∧ s.tx.sameOutside t.tx 0 2 ∧
      t = { s with tx := t.tx, txlen := 2#9, result := okResult }

/-- R112: PACK_BYTE appends its byte, or raises TX_CAP on a full buffer. -/
def Obligations.PackByteEffect : Prop :=
  ∀ (b : Byte) (s : State),
    encode (.packByte b) = (b.setWidth 32 <<< 8) ||| 0x02#32 ∧
    (s.txlen.toNat + 1 ≤ 256 →
      ∃ t, exec (.packByte b) s = .next t ∧ t.tx.holds s.txlen.toNat [b] ∧ s.tx.sameOutside t.tx s.txlen.toNat 1 ∧
        t.txlen.toNat = s.txlen.toNat + 1 ∧ t = { s with tx := t.tx, txlen := t.txlen, result := okResult }) ∧
    (256 < s.txlen.toNat + 1 → exec (.packByte b) s = .next (s.raiseFatal .txCap (encode (.packByte b))))

/-- R113: PACK_WORD appends its word high byte first, or raises TX_CAP where two bytes do not fit. -/
def Obligations.PackWordEffect : Prop :=
  ∀ (w : Half) (s : State),
    encode (.packWord w) = (w.setWidth 32 <<< 8) ||| 0x03#32 ∧
    (s.txlen.toNat + 2 ≤ 256 →
      ∃ t, exec (.packWord w) s = .next t ∧
        t.tx.holds s.txlen.toNat [w.extractLsb' 8 8, w.extractLsb' 0 8] ∧ s.tx.sameOutside t.tx s.txlen.toNat 2 ∧
        t.txlen.toNat = s.txlen.toNat + 2 ∧ t = { s with tx := t.tx, txlen := t.txlen, result := okResult }) ∧
    (256 < s.txlen.toNat + 2 → exec (.packWord w) s = .next (s.raiseFatal .txCap (encode (.packWord w))))

/-- R114: PACK_BYTES appends DATA[0..N9-1], or raises TX_CAP where they do not fit. A DATA byte that is not written since
reset may read as anything (70_reset_and_hazards.md R243). -/
def Obligations.PackBytesEffect : Prop :=
  ∀ (n : Len) (s : State),
    encode (.packBytes n) = (n.setWidth 32 <<< 8) ||| 0x04#32 ∧
    (s.txlen.toNat + n.toNat ≤ 256 →
      ∃ t bytes, exec (.packBytes n) s = .next t ∧ bytes.length = n.toNat ∧ s.data.mayRead 0 bytes ∧
        t.tx.holds s.txlen.toNat bytes ∧ s.tx.sameOutside t.tx s.txlen.toNat n.toNat ∧
        t.txlen.toNat = s.txlen.toNat + n.toNat ∧
        t = { s with tx := t.tx, txlen := t.txlen, result := okResult, draws := t.draws }) ∧
    (256 < s.txlen.toNat + n.toNat → exec (.packBytes n) s = .next (s.raiseFatal .txCap (encode (.packBytes n))))

/-- R115: END_PACK appends the CRC of TX[0..TXLEN-1] low byte first and records it in CRC, or raises TX_CAP where its two
bytes do not fit. -/
def Obligations.EndPackEffect : Prop :=
  ∀ s : State,
    encode .endPack = 0x00000005#32 ∧
    (s.txlen.toNat + 2 ≤ 256 →
      ∃ t body, exec .endPack s = .next t ∧ body.length = s.txlen.toNat ∧ s.tx.mayRead 0 body ∧
        t.tx.holds s.txlen.toNat [(crc16 body).extractLsb' 0 8, (crc16 body).extractLsb' 8 8] ∧
        s.tx.sameOutside t.tx s.txlen.toNat 2 ∧ t.txlen.toNat = s.txlen.toNat + 2 ∧ t.crc = crc16 body ∧
        t = { s with tx := t.tx, txlen := t.txlen, crc := t.crc, result := okResult, draws := t.draws }) ∧
    (256 < s.txlen.toNat + 2 → exec .endPack s = .next (s.raiseFatal .txCap (encode .endPack)))

/-- R116: a frame built by BEGIN_PACK, any pack commands and one END_PACK, all without a fault, is CRC-valid, and VAL_CRC
over a copy of it in RX records OK. -/
def Obligations.PackedFrameValidates : Prop :=
  ∀ (sa fc : Byte) (packs : List Instr) (s t : State), (∀ i ∈ packs, packsPayload i = true) →
    runCommands (.beginPack sa fc :: packs ++ [.endPack]) s = some t →
    ∃ f, f.length = t.txlen.toNat ∧ t.tx.holds 0 f ∧ CrcValid f ∧
      ∀ u : State, u.rx.holds 0 f → u.rxlen = t.txlen →
        ∃ v, exec .valCrc u = .next v ∧ v.result = okResult ∧ v.crc = t.crc

/-! ## Bit fields (41_bit_packing.md) -/

/-- R131: BIT_SET writes bit BIDX % 8 of DATA[BIDX / 8] and keeps the byte's other bits, or raises BIT_RANGE. -/
def Obligations.BitSetEffect : Prop :=
  ∀ (bidx : BitIndex) (cnt : Len) (v : Bool) (s : State),
    encode (.bitSet bidx cnt v) = ((BitVec.ofBool v).setWidth 32 <<< 28) ||| (cnt.setWidth 32 <<< 19) |||
      (bidx.setWidth 32 <<< 8) ||| 0x18#32 ∧
    (bidx.toNat / 8 < cnt.toNat →
      ∃ t old new, exec (.bitSet bidx cnt v) s = .next t ∧ s.data.mayRead (bidx.toNat / 8) [old] ∧
        t.data.holds (bidx.toNat / 8) [new] ∧
        (∀ j, j < 8 → new.getLsbD j = if j = bidx.toNat % 8 then v else old.getLsbD j) ∧
        s.data.sameOutside t.data (bidx.toNat / 8) 1 ∧
        t = { s with data := t.data, result := okResult, draws := t.draws }) ∧
    (cnt.toNat ≤ bidx.toNat / 8 →
      exec (.bitSet bidx cnt v) s = .next (s.raiseFatal .bitRange (encode (.bitSet bidx cnt v))))

/-- R132: BIT_GET records bit BIDX % 8 of DATA[BIDX / 8] in RESULT.BIT, or raises BIT_RANGE. -/
def Obligations.BitGetEffect : Prop :=
  ∀ (bidx : BitIndex) (cnt : Len) (s : State),
    encode (.bitGet bidx cnt) = (cnt.setWidth 32 <<< 19) ||| (bidx.setWidth 32 <<< 8) ||| 0x19#32 ∧
    (bidx.toNat / 8 < cnt.toNat →
      ∃ t byte, exec (.bitGet bidx cnt) s = .next t ∧ s.data.mayRead (bidx.toNat / 8) [byte] ∧
        t = { s with
          result := { kind := kindCode .ok, exc := 0#8, bit := byte.getLsbD (bidx.toNat % 8) }
          draws := t.draws }) ∧
    (cnt.toNat ≤ bidx.toNat / 8 →
      exec (.bitGet bidx cnt) s = .next (s.raiseFatal .bitRange (encode (.bitGet bidx cnt))))

/-- R133: after BIT_SET i, BIT_GET i records the value set, and no other bit index of any DATA byte changes. -/
def Obligations.BitRoundTrip : Prop :=
  ∀ (i : BitIndex) (cnt : Len) (v : Bool) (s : State), cnt.toNat ≤ 256 → i.toNat / 8 < cnt.toNat →
    ∃ t, exec (.bitSet i cnt v) s = .next t ∧
      (∃ u, exec (.bitGet i cnt) t = .next u ∧ u.result = { kind := kindCode .ok, exc := 0#8, bit := v }) ∧
      ∀ j : BitIndex, j ≠ i →
        (∀ x, s.data.lookup (j.toNat / 8) = some x →
          ∃ y, t.data.lookup (j.toNat / 8) = some y ∧ y.getLsbD (j.toNat % 8) = x.getLsbD (j.toNat % 8)) ∧
        (j.toNat / 8 ≠ i.toNat / 8 → t.data.lookup (j.toNat / 8) = s.data.lookup (j.toNat / 8))

/-! ## The validator (42_validator.md) -/

/-- R141: VAL_CRC. An RX byte that is not written since reset may read as anything (70_reset_and_hazards.md R243). -/
def Obligations.ValCrcEffect : Prop :=
  ∀ s : State,
    encode .valCrc = 0x00000010#32 ∧
    (s.rxlen.toNat < 4 →
      exec .valCrc s = .next { s with result := { kind := kindCode .malformed, exc := 0#8, bit := false } }) ∧
    (4 ≤ s.rxlen.toNat →
      ∃ t body low high, exec .valCrc s = .next t ∧ body.length = s.rxlen.toNat - 2 ∧
        s.rx.mayRead 0 (body ++ [low, high]) ∧
        t = { s with
          crc := crc16 body
          result :=
            { kind :=
                if low = (crc16 body).extractLsb' 0 8 ∧ high = (crc16 body).extractLsb' 8 8 then kindCode .ok
                else kindCode .invalidCrc16
              exc := 0#8
              bit := false }
          draws := t.draws })

/-- R142, with the order of checks of R143: VAL_RESP. `a`, `f` and `e` are the reads of RX[0], RX[1] and RX[2]; each equals
the byte of the frame wherever it is written. -/
def Obligations.ValRespEffect : Prop :=
  ∀ (sa fc : Byte) (s : State),
    encode (.valResp sa fc) = (fc.setWidth 32 <<< 16) ||| (sa.setWidth 32 <<< 8) ||| 0x11#32 ∧
    (s.rxlen.toNat < 4 →
      exec (.valResp sa fc) s =
        .next { s with
          pld := { plen := 0#9, poff := 0#8 }
          result := { kind := kindCode .malformed, exc := 0#8, bit := false } }) ∧
    (4 ≤ s.rxlen.toNat →
      ∃ t body low high a f e, exec (.valResp sa fc) s = .next t ∧ body.length = s.rxlen.toNat - 2 ∧
        s.rx.mayRead 0 (body ++ [low, high]) ∧ s.rx.mayRead 0 [a] ∧ s.rx.mayRead 1 [f] ∧ s.rx.mayRead 2 [e] ∧
        t = { s with crc := crc16 body, pld := t.pld, result := t.result, draws := t.draws } ∧
        ((t.result.kind, t.result.exc, t.pld.plen.toNat, t.pld.poff) =
          if ¬ (low = (crc16 body).extractLsb' 0 8 ∧ high = (crc16 body).extractLsb' 8 8) then
            (kindCode .invalidCrc16, 0#8, 0, 0#8)
          else if a ≠ sa then (kindCode .wrongSlave, 0#8, 0, 0#8)
          else if f = fc then (kindCode .ok, 0#8, s.rxlen.toNat - 4, 2#8)
          else if f = fc ||| 0x80#8 then (kindCode .exception, e, 0, 0#8)
          else (kindCode .malformed, 0#8, 0, 0#8)) ∧
        t.result.bit = false)

/-! ## The request builders (43_request_builders.md) -/

/-- R161 to R164 and R166: the requests of an address and a second word, both from ARG. The frame is eight bytes and never
faults. -/
def Obligations.ArgRequestFrames : Prop :=
  ∀ (sa : Byte) (s : State) (i : Instr) (fc : Byte),
    (i, fc) ∈ [(Instr.reqRdCoils sa, 0x01#8), (.reqRdDisc sa, 0x02#8), (.reqRdHregs sa, 0x03#8),
      (.reqRdIregs sa, 0x04#8), (.reqWrReg sa, 0x06#8)] →
    encode i = (sa.setWidth 32 <<< 8) ||| (fc.setWidth 32 + 0x20#32) ∧
    ∃ t, exec i s = .next t ∧ t.tx.holds 0 (withCrc ([sa, fc] ++ argBytes s.arg)) ∧ s.tx.sameOutside t.tx 0 8 ∧
      t = { s with tx := t.tx, txlen := 8#9, crc := crc16 ([sa, fc] ++ argBytes s.arg), result := okResult }

/-- R165: REQ_WR_COIL packs ARG.HI and the word 0xFF00 or 0x0000, and never faults. -/
def Obligations.CoilRequestFrame : Prop :=
  ∀ (sa : Byte) (v : Bool) (s : State),
    encode (.reqWrCoil sa v) = ((BitVec.ofBool v).setWidth 32 <<< 16) ||| (sa.setWidth 32 <<< 8) ||| 0x25#32 ∧
    ∃ t body, exec (.reqWrCoil sa v) s = .next t ∧
      body = [sa, 0x05#8, s.arg.extractLsb' 24 8, s.arg.extractLsb' 16 8, if v then 0xFF#8 else 0x00#8, 0x00#8] ∧
      t.tx.holds 0 (withCrc body) ∧ s.tx.sameOutside t.tx 0 8 ∧
      t = { s with tx := t.tx, txlen := 8#9, crc := crc16 body, result := okResult }

/-- R167: REQ_WR_COILS packs ceil8(q) bytes of DATA, or raises TX_CAP where the frame does not fit in 256 bytes. -/
def Obligations.CoilsRequestFrame : Prop :=
  ∀ (sa : Byte) (s : State) (n : Nat), n = ((s.arg.extractLsb' 0 16).toNat + 7) / 8 →
    encode (.reqWrCoils sa) = (sa.setWidth 32 <<< 8) ||| 0x2F#32 ∧
    (9 + n ≤ 256 →
      ∃ t bytes body, exec (.reqWrCoils sa) s = .next t ∧ bytes.length = n ∧ s.data.mayRead 0 bytes ∧
        body = [sa, 0x0F#8] ++ argBytes s.arg ++ [BitVec.ofNat 8 n] ++ bytes ∧
        t.tx.holds 0 (withCrc body) ∧ s.tx.sameOutside t.tx 0 (9 + n) ∧ t.txlen.toNat = 9 + n ∧
        t = { s with tx := t.tx, txlen := t.txlen, crc := crc16 body, result := okResult, draws := t.draws }) ∧
    (256 < 9 + n → exec (.reqWrCoils sa) s = .next (s.raiseFatal .txCap (encode (.reqWrCoils sa))))

/-- R168: REQ_WR_REGS packs 2q bytes of DATA, or raises TX_CAP where the frame does not fit in 256 bytes. -/
def Obligations.RegistersRequestFrame : Prop :=
  ∀ (sa : Byte) (s : State) (n : Nat), n = 2 * (s.arg.extractLsb' 0 16).toNat →
    encode (.reqWrRegs sa) = (sa.setWidth 32 <<< 8) ||| 0x30#32 ∧
    (9 + n ≤ 256 →
      ∃ t bytes body, exec (.reqWrRegs sa) s = .next t ∧ bytes.length = n ∧ s.data.mayRead 0 bytes ∧
        body = [sa, 0x10#8] ++ argBytes s.arg ++ [BitVec.ofNat 8 n] ++ bytes ∧
        t.tx.holds 0 (withCrc body) ∧ s.tx.sameOutside t.tx 0 (9 + n) ∧ t.txlen.toNat = 9 + n ∧
        t = { s with tx := t.tx, txlen := t.txlen, crc := crc16 body, result := okResult, draws := t.draws }) ∧
    (256 < 9 + n → exec (.reqWrRegs sa) s = .next (s.raiseFatal .txCap (encode (.reqWrRegs sa))))

/-- R160: a request builder leaves what its primitive commands leave one after the other, and raises TX_CAP with its own
word where one of them faults. The premise on the data is that PACK_BYTES can name them (30_encoding.md R74). -/
def Obligations.RequestEqualsPrimitives : Prop :=
  ∀ (i : Instr) (s : State), isRequest i = true → s.status.fatal = false → requestData i s.arg ≤ 256 →
    (∀ t, runCommands (requestCommands i s.arg) s = some t → exec i s = .next t) ∧
    (runCommands (requestCommands i s.arg) s = none → exec i s = .next (s.raiseFatal .txCap (encode i)))

/-! ## Fatal faults and the halt (60_exceptions.md) -/

/-- R203, R205, with the codes of R202: what a fatal fault latches and what it keeps. The rest is unspecified and nothing
is claimed of it. -/
def Obligations.FatalFaultLatches : Prop :=
  (∀ (s : State) (cause : FatalCause) (info : Word),
    (s.raiseFatal cause info).status = { s.status with fatal := true, fcause := causeCode cause } ∧
      (s.raiseFatal cause info).finfo = info ∧ (s.raiseFatal cause info).rx = s.rx ∧
      (s.raiseFatal cause info).rxlen = s.rxlen ∧ (s.raiseFatal cause info).arg = s.arg) ∧
    causeCode .txCap = 1#4 ∧ causeCode .bitRange = 2#4 ∧ causeCode .rxCap = 3#4

/-- R202: a command completes with STATUS and FINFO kept, or it is one of the commands that may fault and raises a fatal
fault with its own word. No command stops the machine. -/
def Obligations.CommandsCompleteOrLatch : Prop :=
  ∀ (i : Instr) (s : State),
    ∃ t, exec i s = .next t ∧
      ((t.status = s.status ∧ t.finfo = s.finfo) ∨
        (mayFault i = true ∧ ∃ cause, t = s.raiseFatal cause (encode i)))

/-- 10_state.md R36 (the column "Written by"), R26: which command may write which state, where it raises no fault. -/
def Obligations.CommandWriteSets : Prop :=
  ∀ (i : Instr) (s t : State), exec i s = .next t → t.status.fatal = false →
    (writesTx i = false → t.tx = s.tx ∧ t.txlen = s.txlen) ∧
    (writesCrc i = false → t.crc = s.crc) ∧
    (writesPld i = false → t.pld = s.pld) ∧
    (writesData i = false → t.data = s.data) ∧
    t.arg = s.arg ∧ t.rx = s.rx ∧ t.rxlen = s.rxlen ∧ t.status = s.status ∧ t.finfo = s.finfo ∧ t.pend = s.pend ∧
    t.inputs = s.inputs ∧ t.latency = s.latency ∧ t.rdata = s.rdata

/-- 10_state.md R30: only the REQ_* commands read ARG. Another command does the same whatever ARG holds. -/
def Obligations.OnlyRequestsReadArg : Prop :=
  ∀ (i : Instr) (s : State) (a : Word), isRequest i = false →
    exec i { s with arg := a } = afterNext (fun t => { t with arg := a }) (exec i s)

/-- R206: the halt. A CMD write and every other write but CTRL is ignored, a legal read still returns its value, and the
engine does nothing. -/
def Obligations.HaltedBlockIgnoresWrites : Prop :=
  ∀ s : State, s.status.fatal = true →
    (∀ off width v rest, s.inputs = .access .host (.write off width v) :: rest → LegalAccess off width →
      off ≠ 0x020#10 → step s = .next { s with inputs := rest, latency := s.latency - 1 }) ∧
    (∀ v rest, s.inputs = .access .host (.write 0x020#10 .word v) :: rest → v.getLsbD 0 = true →
      ∃ t, step s = .next t ∧ t.afterReset) ∧
    (∀ off width rest, s.inputs = .access .host (.read off width) :: rest → LegalAccess off width →
      ∃ t, step s = .next t ∧ t.rdata = some (s.busRead off width).1 ∧
        t = { s with inputs := rest, latency := s.latency - 1, rdata := t.rdata, draws := t.draws }) ∧
    (s.inputs = [] → step s = .next s)

/-- R207, R208: only a reset leaves a fatal fault; every other step keeps FATAL, FCAUSE and FINFO. -/
def Obligations.OnlyResetLeavesFatal : Prop :=
  ∀ s t : State, s.status.fatal = true → step s = .next t →
    (t.status.fatal = true ∧ t.status.fcause = s.status.fcause ∧ t.finfo = s.finfo) ∨
    (t.afterReset ∧
      ∃ rest, s.inputs = .hardwareReset :: rest ∨
        ∃ v : Word, v.getLsbD 0 = true ∧ s.inputs = .access .host (.write 0x020#10 .word v) :: rest)

/-! ## The engine step (10_state.md R22) -/

/-- When the word pending in the engine decodes to a command, the engine's step is that command's meaning, and then PEND is
none and BUSY is 0. -/
def Obligations.StepRunsPendingCommand : Prop :=
  ∀ (s : State) (w : Word) (i : Instr), s.engineTurn = true → s.pend = some w → decode w = .ok i →
    step s =
      afterNext (fun t => { t with pend := none, status := { t.status with busy := false }, latency := 0 }) (exec i s)

/-- R201: an illegal word records ILLEGAL_CMD, clears BUSY and PEND and changes nothing else; and the reserved opcodes of
30_encoding.md R75 are illegal. -/
def Obligations.IllegalWordEffect : Prop :=
  (∀ (s : State) (w : Word) (e : DecodeError), s.engineTurn = true → s.pend = some w → decode w = .error e →
    step s =
      .next { s with
        result := { kind := kindCode .illegalCmd, exc := 0#8, bit := false }
        pend := none
        status := { s.status with busy := false }
        latency := 0 }) ∧
    ∀ (w : Word) (op : Nat), op = w.toNat % 256 →
      (op = 0x06 ∨ op = 0x07 ∨ (0x0A ≤ op ∧ op ≤ 0x0F) ∨ (0x12 ≤ op ∧ op ≤ 0x17) ∨ (0x1A ≤ op ∧ op ≤ 0x20) ∨
        (0x27 ≤ op ∧ op ≤ 0x2E) ∨ 0x31 ≤ op) →
      ∃ e, decode w = .error e

/-- R22: the CMD write and the engine step. A CMD write is discarded while FATAL = 1, a host protocol violation while
BUSY = 1, and otherwise makes the word pending; the engine executes it only while BUSY = 1; a soft reset while BUSY = 1
discards it. -/
def Obligations.CommandHandshake : Prop :=
  (∀ (s : State) (v : Word) (rest : List Input), s.hostNext (.write 0x000#10 .word v) rest →
    (s.status.fatal = true → step s = .next { s with inputs := rest, latency := s.latency - 1 }) ∧
    (s.status.fatal = false → s.status.busy = true → step s = .fault .hostProtocolViolation) ∧
    (s.status.fatal = false → s.status.busy = false →
      ∃ t, step s = .next t ∧
        t = { s with
          pend := some v
          status := { s.status with busy := true }
          inputs := rest
          latency := t.latency
          draws := t.draws })) ∧
  (∀ (s : State) (w : Word), s.engineTurn = true → s.pend = some w →
    s.status.busy = true ∧
      ∃ u, executeWord w s = .next u ∧
        step s = .next { u with pend := none, status := { u.status with busy := false }, latency := 0 }) ∧
  ∀ (s : State) (v : Word) (rest : List Input), s.hostNext (.write 0x020#10 .word v) rest → s.status.busy = true →
    v.getLsbD 0 = true → ∃ t, step s = .next t ∧ t.pend = none ∧ t.afterReset

/-! ## The host bus (20_memory.md) -/

/-- R52, R53: an access is an access error exactly where its width or its offset is illegal. While BUSY = 1 an illegal
access falls under R53 and under 70_reset_and_hazards.md R240 both; that it is an access error then, and no host protocol
violation, is the model's choice (log 8). -/
def Obligations.AccessErrorsExactly : Prop :=
  ∀ (s : State) (off : Offset) (width : Width) (op : HostOp) (rest : List Input), s.hostNext op rest →
    (op = .read off width ∨ ∃ v, op = .write off width v) →
    (step s = .fault (.hostAccessError off width) ↔ ¬ LegalAccess off width)

/-- 70_reset_and_hazards.md R240: while a command is in the engine, a legal access is a host protocol violation unless it
is a STATUS read or a CTRL write; `poll` is none and `rdtx` is one. That an illegal access is reported as an access error
instead is the model's choice (log 8). -/
def Obligations.BusyAccessesAreViolations : Prop :=
  ∀ (s : State) (rest : List Input), s.status.busy = true → s.status.fatal = false →
    (∀ off width, s.hostNext (.read off width) rest → LegalAccess off width →
      (step s = .fault .hostProtocolViolation ↔ off ≠ 0x008#10)) ∧
    (∀ off width v, s.hostNext (.write off width v) rest → LegalAccess off width →
      (step s = .fault .hostProtocolViolation ↔ off ≠ 0x020#10)) ∧
    (s.hostNext .poll rest → ∃ t, step s = .next t) ∧
    (s.hostNext .rdtx rest → step s = .fault .hostProtocolViolation)

/-- R58, the registers: what each reads as, reserved offsets as 0, and no state of the block changes. -/
def Obligations.RegisterReads : Prop :=
  ∀ (s : State) (off : Offset) (rest : List Input), s.hostNext (.read off .word) rest →
    (s.status.busy = false ∨ off = 0x008#10) → off.toNat < 0x100 → off.toNat % 4 = 0 →
    ∃ v, step s = .next { s with inputs := rest, latency := s.latency - 1, rdata := some v } ∧
      (∀ x, (off, x) ∈
        [(0x000#10, 0#32), (0x004#10, s.arg), (0x008#10, statusWord s.status), (0x00C#10, resultWord s.result),
          (0x010#10, s.crc.setWidth 32), (0x014#10, s.txlen.setWidth 32), (0x018#10, s.rxlen.setWidth 32),
          (0x01C#10, pldWord s.pld), (0x020#10, 0#32), (0x024#10, s.finfo)] → v = x) ∧
      (0x028 ≤ off.toNat → v = 0#32)

/-- 10_state.md R24, R25, R29: the places of the fields of STATUS, RESULT and PLD, every other bit reading 0, and the codes
of KIND. -/
def Obligations.RegisterLayouts : Prop :=
  (∀ st : Status, (statusWord st).getLsbD 0 = st.busy ∧ (statusWord st).getLsbD 1 = st.fatal ∧
    (statusWord st).extractLsb' 2 2 = 0#2 ∧ (statusWord st).extractLsb' 4 4 = st.fcause ∧
    (statusWord st).extractLsb' 8 24 = 0#24) ∧
  (∀ r : Result, (resultWord r).extractLsb' 0 4 = r.kind ∧ (resultWord r).extractLsb' 4 4 = 0#4 ∧
    (resultWord r).extractLsb' 8 8 = r.exc ∧ (resultWord r).getLsbD 16 = r.bit ∧
    (resultWord r).extractLsb' 17 15 = 0#15) ∧
  (kindCode .ok = 0#4 ∧ kindCode .invalidCrc16 = 1#4 ∧ kindCode .wrongSlave = 2#4 ∧ kindCode .malformed = 3#4 ∧
    kindCode .exception = 4#4 ∧ kindCode .illegalCmd = 5#4 ∧ kindCode .overflow = 6#4) ∧
  ∀ p : Pld, (pldWord p).extractLsb' 0 9 = p.plen ∧ (pldWord p).extractLsb' 9 7 = 0#7 ∧
    (pldWord p).extractLsb' 16 8 = p.poff ∧ (pldWord p).extractLsb' 24 8 = 0#8

/-- R54, the reads: a window read returns its bytes, the lowest index in bits [7:0], and changes no state of the block. -/
def Obligations.WindowReads : Prop :=
  ∀ (s : State) (off : Offset) (width : Width) (rest : List Input), s.hostNext (.read off width) rest →
    s.status.busy = false → 0x100 ≤ off.toNat → off.toNat % width.bytes = 0 →
    ∃ t bytes v, step s = .next t ∧ bytes.length = width.bytes ∧
      (off.toNat < 0x200 → s.tx.mayRead (off.toNat - 0x100) bytes) ∧
      (0x200 ≤ off.toNat → off.toNat < 0x300 → s.rx.mayRead (off.toNat - 0x200) bytes) ∧
      (0x300 ≤ off.toNat → s.data.mayRead (off.toNat - 0x300) bytes) ∧
      t = { s with inputs := rest, latency := s.latency - 1, rdata := some v, draws := t.draws } ∧
      (∀ k b, bytes[k]? = some b → v.extractLsb' (8 * k) 8 = b) ∧ v.toNat < 2 ^ (8 * width.bytes)

/-- R54, R59, the writes of the windows: RXBUF and DATABUF take the bytes of the value, the lowest index from bits [7:0],
and no other byte changes; a TXBUF write is ignored. -/
def Obligations.WindowWrites : Prop :=
  ∀ (s : State) (off : Offset) (width : Width) (v : Word) (rest : List Input),
    s.hostNext (.write off width v) rest → s.idle → 0x100 ≤ off.toNat → off.toNat % width.bytes = 0 →
    (off.toNat < 0x200 → step s = .next { s with inputs := rest, latency := s.latency - 1 }) ∧
    (0x200 ≤ off.toNat → off.toNat < 0x300 →
      ∃ t, step s = .next t ∧ t = { s with inputs := rest, latency := s.latency - 1, rx := t.rx } ∧
        (∀ k, k < width.bytes → t.rx.lookup (off.toNat - 0x200 + k) = some (v.extractLsb' (8 * k) 8)) ∧
        s.rx.sameOutside t.rx (off.toNat - 0x200) width.bytes) ∧
    (0x300 ≤ off.toNat →
      ∃ t, step s = .next t ∧ t = { s with inputs := rest, latency := s.latency - 1, data := t.data } ∧
        (∀ k, k < width.bytes → t.data.lookup (off.toNat - 0x300 + k) = some (v.extractLsb' (8 * k) 8)) ∧
        s.data.sameOutside t.data (off.toNat - 0x300) width.bytes)

/-- R59, R30, the writes of the registers: ARG takes the value, the read-only registers and the reserved offsets ignore it. -/
def Obligations.RegisterWrites : Prop :=
  ∀ (s : State) (off : Offset) (v : Word) (rest : List Input),
    s.hostNext (.write off .word v) rest → s.idle → off.toNat < 0x100 → off.toNat % 4 = 0 →
    (off = 0x004#10 → step s = .next { s with inputs := rest, latency := s.latency - 1, arg := v }) ∧
    (off ∉ [0x000#10, 0x004#10, 0x018#10, 0x020#10] →
      step s = .next { s with inputs := rest, latency := s.latency - 1 })

/-- 10_state.md R28, 60_exceptions.md R204, R205: the write of RXLEN, compared with 256 on all 32 bits. That the fault leaves
R205's unspecified state here too is the model's choice (log 18). -/
def Obligations.RxlenWrite : Prop :=
  ∀ (s : State) (v : Word) (rest : List Input), s.hostNext (.write 0x018#10 .word v) rest → s.status.busy = false →
    (s.status.fatal = true → step s = .next { s with inputs := rest, latency := s.latency - 1 }) ∧
    (s.status.fatal = false → v.toNat ≤ 256 →
      ∃ n : Len, n.toNat = v.toNat ∧
        step s = .next { s with inputs := rest, latency := s.latency - 1, rxlen := n }) ∧
    (s.status.fatal = false → 256 < v.toNat →
      step s = .next ({ s with inputs := rest, latency := s.latency - 1 }.raiseFatal .rxCap v))

/-- R63: an access of a second host agent is refused. -/
def Obligations.SecondHostIsRefused : Prop :=
  ∀ (s : State) (op : HostOp) (rest : List Input), s.inputs = .access .other op :: rest → s.engineTurn = false →
    step s = .refused .secondHostAgent

/-! ## Reset (70_reset_and_hazards.md R230, 10_state.md R37, R32) -/

/-- R37, R230, R32: the machine starts at the reset values, and a hardware reset or a CTRL write with bit 0 set leaves them,
whatever BUSY and FATAL are; a CTRL write with bit 0 clear has no effect. -/
def Obligations.ResetLeavesSpecifiedValues : Prop :=
  State.reset.afterReset ∧
  (∀ (s : State) (rest : List Input), s.inputs = .hardwareReset :: rest → s.engineTurn = false →
    ∃ t, step s = .next t ∧ t.afterReset ∧ t.inputs = rest) ∧
  ∀ (s : State) (v : Word) (rest : List Input), s.hostNext (.write 0x020#10 .word v) rest →
    (v.getLsbD 0 = true → ∃ t, step s = .next t ∧ t.afterReset ∧ t.inputs = rest) ∧
    (v.getLsbD 0 = false → step s = .next { s with inputs := rest, latency := s.latency - 1 })

/-! ## The invariant (10_state.md R35) -/

/-- The invariant holds right after reset. -/
def Obligations.ResetMeetsInvariant : Prop := State.reset.Inv

/-- R35 and the rest of the invariant: every step keeps it. Its clause on the latency is about the model's own field
(log 5). -/
def Obligations.StepKeepsInvariant : Prop := ∀ s t : State, s.Inv → step s = .next t → t.Inv

/-! ## Programs of the host (44_control.md) -/

/-- R183: `poll` ends. From a state with BUSY = 0, or with a command in the engine, at most `latency + 2` steps leave it
behind with BUSY = 0. That the latency is a number of host operations is the model's choice (log 5). -/
def Obligations.PollEnds : Prop :=
  ∀ (s : State) (rest : List Input), s.Inv → s.inputs = .access .host .poll :: rest →
    ∃ k t, k ≤ s.latency + 2 ∧ runSteps k s = .next t ∧ t.inputs = rest ∧ t.status.busy = false

/-- R184: `cmd` runs its command. From an idle state, some number of steps performs the command on the registers and the
buffers the host left, and ends with BUSY = 0. How many steps that is, is `CMD_LATENCY`, a free value (log 5). -/
def Obligations.CmdRunsItsCommand : Prop :=
  ∀ (s : State) (i : Instr) (rest : List Input), s.idle → i.wf = true →
    s.inputs = (cmdOps i).map (Input.access .host) ++ rest →
    ∃ k t u s1, runSteps k s = .next t ∧
      s1 = { s with
        pend := some (encode i)
        status := { s.status with busy := true }
        inputs := s1.inputs
        latency := s1.latency
        rdata := s1.rdata
        draws := s1.draws } ∧
      exec i s1 = .next u ∧
      t = { u with
        pend := none
        status := { u.status with busy := false }
        latency := 0
        inputs := rest
        rdata := t.rdata }

/-- R185, `ldbuf` and `ldrx`: the bytes lie in the buffer from index 0 on, the other bytes and registers are kept, and
`ldrx` leaves RXLEN at their number. -/
def Obligations.LoadsFillTheBuffers : Prop :=
  ∀ (s : State) (bytes : List Byte) (rest : List Input), s.idle → bytes.length ≤ 256 →
    (s.inputs = (ldbufOps .data bytes).map (Input.access .host) ++ rest →
      ∃ t, runSteps bytes.length s = .next t ∧ t.data.holds 0 bytes ∧
        s.data.sameOutside t.data 0 bytes.length ∧
        t = { s with data := t.data, inputs := rest, latency := t.latency }) ∧
    (s.inputs = (ldrxOps bytes).map (Input.access .host) ++ rest →
      ∃ t, runSteps (bytes.length + 1) s = .next t ∧ t.rx.holds 0 bytes ∧
        s.rx.sameOutside t.rx 0 bytes.length ∧ t.rxlen.toNat = bytes.length ∧
        t = { s with rx := t.rx, rxlen := t.rxlen, inputs := rest, latency := t.latency })

/-- R185, `rdtx`: the bus returns TXLEN and then each byte of TX below it, in index order. -/
def Obligations.RdtxReadsTheFrame : Prop :=
  ∀ (s : State) (frame : List Byte) (rest : List Input), s.idle → s.inputs = .access .host .rdtx :: rest →
    s.tx.holds 0 frame → frame.length = s.txlen.toNat → s.txlen.toNat ≤ 256 →
    (∃ t, runSteps 1 s = .next t ∧ t.rdata = some (s.txlen.setWidth 32)) ∧
    ∀ k b, frame[k]? = some b →
      ∃ t, runSteps (k + 2) s = .next t ∧ t.rdata = some (b.setWidth 32) ∧
        t.tx = s.tx ∧ (k + 1 = frame.length → t.inputs = rest)
end

