-- ==== Sys2Proof/Laws/Crc.lean ====
section
/-! SUPPORT. The laws of the CRC: the table is linear, one byte step is injective in the accumulator and in the byte, and
feeding a CRC its own bytes leaves 0 (40_frame_codec.md R106). -/

namespace Sys2Proof.Machine

/-- The table index of R101 is the XOR of the accumulator's low byte and the input byte. -/
theorem crcIndex (acc : Half) (b : Byte) :
    ((acc ^^^ b.setWidth 16) &&& 0x00FF#16).setWidth 8 = acc.setWidth 8 ^^^ b := by
  apply BitVec.eq_of_getLsbD_eq
  intro i hi
  have hm : ∀ i, i < 8 → (0x00FF#16).getLsbD i = true := by decide
  simp only [BitVec.getLsbD_setWidth, BitVec.getLsbD_and, BitVec.getLsbD_xor, hi, hm i hi, show i < 16 by omega,
    decide_true, Bool.true_and, Bool.and_true]

theorem crcStep_eq (acc : Half) (b : Byte) : crcStep acc b = (acc >>> 8) ^^^ crcTable (acc.setWidth 8 ^^^ b) := by
  rw [crcStep, crcIndex]

theorem crcTable_zero : crcTable 0#8 = 0#16 := by decide

/-- Feeding the low CRC byte shifts the accumulator (R106 item 1). -/
theorem crcStep_crcLow (c : Half) : crcStep c (crcLow c) = c >>> 8 := by
  have h : c.setWidth 8 ^^^ crcLow c = 0#8 := by
    have : crcLow c = c.setWidth 8 := BitVec.eq_of_toNat_eq (by simp [crcLow])
    rw [this, BitVec.xor_self]
  rw [crcStep_eq, h, crcTable_zero, BitVec.xor_zero]

theorem crcStep_crcHigh (c : Half) : crcStep (c >>> 8) (crcHigh c) = 0#16 := by
  have h : (c >>> 8).setWidth 8 ^^^ crcHigh c = 0#8 := by
    have : (c >>> 8).setWidth 8 = crcHigh c := by
      apply BitVec.eq_of_getLsbD_eq
      intro i hi
      simp [crcHigh, BitVec.getLsbD_ushiftRight, hi]
    rw [this, BitVec.xor_self]
  have h8 : c >>> 8 >>> 8 = 0#16 := by
    apply BitVec.eq_of_toNat_eq
    simp only [BitVec.toNat_ushiftRight, BitVec.toNat_ofNat, Nat.shiftRight_eq_div_pow]
    omega
  rw [crcStep_eq, h, crcTable_zero, BitVec.xor_zero, h8]

theorem crc16_append (as bs : List Byte) : crc16 (as ++ bs) = bs.foldl crcStep (crc16 as) := by
  simp [crc16, List.foldl_append]

/-! ## The shift, with the polynomial written out -/

/-- One bit step of R106 item 3, with the polynomial of R3 as a literal. -/
theorem crcShift_eq (t : Half) : crcShift t = (t >>> 1) ^^^ (if t.getLsbD 0 then 0xA001#16 else 0x0000#16) := by
  unfold crcShift
  split
  · rfl
  · rw [BitVec.xor_zero]

/-! ## Linearity -/

theorem crcShift_xor (a b : Half) : crcShift (a ^^^ b) = crcShift a ^^^ crcShift b := by
  have hs : (a ^^^ b) >>> 1 = (a >>> 1) ^^^ (b >>> 1) := BitVec.ushiftRight_xor_distrib a b 1
  simp only [crcShift, BitVec.getLsbD_xor, hs]
  generalize Config.crcPolyR = p
  cases a.getLsbD 0 <;> cases b.getLsbD 0 <;> simp only [Bool.xor_true, Bool.xor_false, Bool.not_true, Bool.not_false,
    Bool.false_eq_true, if_true, if_false]
  · rw [BitVec.xor_assoc]
  · rw [BitVec.xor_assoc, BitVec.xor_assoc, BitVec.xor_comm p]
  · rw [BitVec.xor_assoc, ← BitVec.xor_assoc p, BitVec.xor_comm p, BitVec.xor_assoc (b >>> 1), BitVec.xor_self,
      BitVec.xor_zero]

theorem crcShifts_xor (n : Nat) (a b : Half) : crcShifts n (a ^^^ b) = crcShifts n a ^^^ crcShifts n b := by
  induction n generalizing a b with
  | zero => rfl
  | succ n ih => simp [crcShifts, crcShift_xor, ih]

theorem crcTable_xor (a b : Byte) : crcTable (a ^^^ b) = crcTable a ^^^ crcTable b := by
  simp [crcTable, BitVec.setWidth_xor, crcShifts_xor]

/-- Eight steps shift a high byte down unchanged. -/
theorem crcShifts_high : ∀ h : Byte, crcShifts 8 (h.setWidth 16 <<< 8) = h.setWidth 16 := by decide

/-- The high byte of a table entry is 0 for the entry 0 alone. -/
theorem crcTable_high : ∀ i : Byte, crcHigh (crcTable i) = 0#8 → i = 0#8 := by decide

/-! ## Injectivity -/

theorem crcHigh_shift (c : Half) : crcHigh (c >>> 8) = 0#8 := by
  apply BitVec.eq_of_toNat_eq
  simp only [crcHigh, BitVec.extractLsb'_toNat, BitVec.toNat_ushiftRight, BitVec.toNat_ofNat,
    Nat.shiftRight_eq_div_pow]
  omega

theorem crcHigh_xor (a b : Half) : crcHigh (a ^^^ b) = crcHigh a ^^^ crcHigh b := by
  apply BitVec.eq_of_getLsbD_eq
  intro i hi
  simp [crcHigh, BitVec.getLsbD_xor, hi]

theorem half_eq_of_parts {a b : Half} (hh : a >>> 8 = b >>> 8) (hl : a.setWidth 8 = b.setWidth 8) : a = b := by
  apply BitVec.eq_of_toNat_eq
  have h1 := congrArg BitVec.toNat hh
  have h2 := congrArg BitVec.toNat hl
  simp only [BitVec.toNat_ushiftRight, BitVec.toNat_setWidth, Nat.shiftRight_eq_div_pow] at h1 h2
  omega

/-- A CRC is its two bytes. -/
theorem half_eq_of_bytes {a b : Half} (hl : crcLow a = crcLow b) (hh : crcHigh a = crcHigh b) : a = b := by
  apply BitVec.eq_of_toNat_eq
  have h1 := congrArg BitVec.toNat hh
  have h2 := congrArg BitVec.toNat hl
  simp only [crcLow, crcHigh, BitVec.extractLsb'_toNat, Nat.shiftRight_eq_div_pow] at h1 h2
  omega

theorem xor_cancel {w : Nat} {a b c : BitVec w} : a ^^^ b = a ^^^ c ↔ b = c := by
  constructor
  · intro h
    have := congrArg (a ^^^ ·) h
    simpa [← BitVec.xor_assoc] using this
  · rintro rfl
    rfl

theorem xor_cancel_right {w : Nat} {a b c : BitVec w} : b ^^^ a = c ^^^ a ↔ b = c := by
  rw [BitVec.xor_comm b, BitVec.xor_comm c, xor_cancel]

theorem eq_of_xor_eq_zero {w : Nat} {a b : BitVec w} (h : a ^^^ b = 0#w) : a = b := by
  have := congrArg (· ^^^ b) h
  simpa [BitVec.xor_assoc] using this

/-- One byte step differs only where the table index does: the two shifts and the two indices determine the result. -/
theorem crcStep_eq_iff {a b : Half} {x y : Byte} (h : crcStep a x = crcStep b y) :
    a >>> 8 = b >>> 8 ∧ a.setWidth 8 ^^^ x = b.setWidth 8 ^^^ y := by
  rw [crcStep_eq, crcStep_eq] at h
  have hh := congrArg crcHigh h
  rw [crcHigh_xor, crcHigh_xor, crcHigh_shift, crcHigh_shift, BitVec.zero_xor, BitVec.zero_xor] at hh
  have hi : a.setWidth 8 ^^^ x = b.setWidth 8 ^^^ y := by
    apply eq_of_xor_eq_zero
    apply crcTable_high
    rw [crcTable_xor, crcHigh_xor, hh, BitVec.xor_self]
  rw [hi] at h
  exact ⟨xor_cancel_right.1 h, hi⟩

/-- Different accumulators stay different under the same byte. -/
theorem crcStep_injective {a b : Half} {x : Byte} (h : crcStep a x = crcStep b x) : a = b := by
  obtain ⟨h1, h2⟩ := crcStep_eq_iff h
  exact half_eq_of_parts h1 (xor_cancel_right.1 h2)

/-- Different bytes give different accumulators. -/
theorem crcStep_injective_byte {a : Half} {x y : Byte} (h : crcStep a x = crcStep a y) : x = y :=
  xor_cancel.1 (crcStep_eq_iff h).2

theorem foldl_crcStep_injective {bs : List Byte} {a b : Half} (h : bs.foldl crcStep a = bs.foldl crcStep b) : a = b := by
  induction bs generalizing a b with
  | nil => exact h
  | cons x bs ih => exact crcStep_injective (ih h)

/-- Changing one byte of a sequence changes its CRC. -/
theorem crc16_modify_ne {f : List Byte} {k : Nat} (g : Byte → Byte) (hk : k < f.length) (hg : ∀ b, g b ≠ b) :
    crc16 (f.modify k g) ≠ crc16 f := by
  intro h
  have h1 : f = f.take k ++ f[k] :: f.drop (k + 1) := by simp
  have h2 : f.modify k g = f.take k ++ g f[k] :: f.drop (k + 1) := by
    rw [List.modify_eq_take_cons_drop hk]
  rw [h2] at h
  rw [show crc16 f = crc16 (f.take k ++ f[k] :: f.drop (k + 1)) by rw [← h1]] at h
  rw [crc16_append, crc16_append, List.foldl_cons, List.foldl_cons] at h
  exact hg _ (crcStep_injective_byte (foldl_crcStep_injective h))

end Sys2Proof.Machine
end

