-- ==== Sys2Proof/Laws/Encoding.lean ====
section
/-! SUPPORT. The laws of the command words: an encoding as a number, the fields read back from it, and the opcode map read
both ways. -/

namespace Sys2Proof

/-! ## The opcode map -/

theorem opcodeOf_toByte (op : Opcode) : opcodeOf op.toByte = some op := by cases op <;> rfl

theorem toByte_of_opcodeOf {b : Byte} {op : Opcode} (h : opcodeOf b = some op) : op.toByte = b := by
  simp only [opcodeOf] at h
  split at h <;> cases h
  all_goals
    rename_i hb
    exact (BitVec.eq_of_toNat_eq hb).symm

/-! ## Encodings as numbers (30_encoding.md R82) -/

theorem or_eq_add {a b k : Nat} (h : b < 2 ^ k) : a * 2 ^ k ||| b = a * 2 ^ k + b := by
  rw [Nat.mul_comm, ← Nat.two_pow_add_eq_or_of_lt h]

/-- OR of a field in place at bit `k` with what lies below it. -/
theorem toNat_field_or {w k : Nat} (x : BitVec w) (r : Word) (hw : w + k ≤ 32) (hr : r.toNat < 2 ^ k) :
    ((x.setWidth 32 <<< k) ||| r).toNat = x.toNat * 2 ^ k + r.toNat := by
  have hx : x.toNat < 2 ^ w := x.isLt
  have h1 : x.toNat * 2 ^ k < 2 ^ 32 := by
    calc x.toNat * 2 ^ k < 2 ^ w * 2 ^ k := Nat.mul_lt_mul_of_pos_right hx (Nat.two_pow_pos k)
      _ = 2 ^ (w + k) := (Nat.pow_add 2 w k).symm
      _ ≤ 2 ^ 32 := Nat.pow_le_pow_right (by decide) hw
  have h2 : x.toNat < 2 ^ 32 := Nat.lt_of_lt_of_le hx (Nat.pow_le_pow_right (by decide) (by omega))
  simp only [BitVec.toNat_or, BitVec.toNat_shiftLeft, BitVec.toNat_setWidth, Nat.shiftLeft_eq, Nat.mod_eq_of_lt h2,
    Nat.mod_eq_of_lt h1]
  exact or_eq_add hr

theorem encN_toNat (op : Opcode) : (encN op).toNat = op.toByte.toNat := by
  have := op.toByte.isLt
  simp only [encN, BitVec.toNat_setWidth]
  omega

theorem encB_toNat (op : Opcode) (b : Byte) : (encB op b).toNat = b.toNat * 2 ^ 8 + op.toByte.toNat := by
  have := op.toByte.isLt
  rw [encB, toNat_field_or b _ (by decide) (by rw [encN_toNat]; omega), encN_toNat]

theorem encW_toNat (op : Opcode) (x : Half) : (encW op x).toNat = x.toNat * 2 ^ 8 + op.toByte.toNat := by
  have := op.toByte.isLt
  rw [encW, toNat_field_or x _ (by decide) (by rw [encN_toNat]; omega), encN_toNat]

theorem encL_toNat (op : Opcode) (n : Len) : (encL op n).toNat = n.toNat * 2 ^ 8 + op.toByte.toNat := by
  have := op.toByte.isLt
  rw [encL, toNat_field_or n _ (by decide) (by rw [encN_toNat]; omega), encN_toNat]

theorem encAF_toNat (op : Opcode) (sa fc : Byte) :
    (encAF op sa fc).toNat = fc.toNat * 2 ^ 16 + (sa.toNat * 2 ^ 8 + op.toByte.toNat) := by
  have h1 := sa.isLt
  have h2 := op.toByte.isLt
  have hb := encB_toNat op sa
  rw [encB] at hb
  rw [encAF, BitVec.or_assoc, toNat_field_or fc _ (by decide) (by rw [hb]; omega), hb]

theorem encRC_toNat (op : Opcode) (sa : Byte) (v : Bool) :
    (encRC op sa v).toNat = v.toNat * 2 ^ 16 + (sa.toNat * 2 ^ 8 + op.toByte.toNat) := by
  have h1 := sa.isLt
  have h2 := op.toByte.isLt
  have hb := encB_toNat op sa
  rw [encB] at hb
  rw [encRC, BitVec.or_assoc, toNat_field_or (BitVec.ofBool v) _ (by decide) (by rw [hb]; omega), hb,
    BitVec.toNat_ofBool]

theorem encBT_toNat (op : Opcode) (bidx : BitIndex) (cnt : Len) (v : Bool) :
    (encBT op bidx cnt v).toNat =
      v.toNat * 2 ^ 28 + (cnt.toNat * 2 ^ 19 + (bidx.toNat * 2 ^ 8 + op.toByte.toNat)) := by
  have h1 := bidx.isLt
  have h2 := op.toByte.isLt
  have h3 := cnt.isLt
  have hb : ((bidx.setWidth 32 <<< 8) ||| encN op).toNat = bidx.toNat * 2 ^ 8 + op.toByte.toNat := by
    rw [toNat_field_or bidx _ (by decide) (by rw [encN_toNat]; omega), encN_toNat]
  have hc : ((cnt.setWidth 32 <<< 19) ||| ((bidx.setWidth 32 <<< 8) ||| encN op)).toNat =
      cnt.toNat * 2 ^ 19 + (bidx.toNat * 2 ^ 8 + op.toByte.toNat) := by
    rw [toNat_field_or cnt _ (by decide) (by rw [hb]; omega), hb]
  rw [encBT, BitVec.or_assoc, BitVec.or_assoc, toNat_field_or (BitVec.ofBool v) _ (by decide) (by rw [hc]; omega), hc,
    BitVec.toNat_ofBool]

/-! ## Fields as numbers (30_encoding.md R71) -/

theorem extract_toNat (w : Word) (lo n : Nat) : (w.extractLsb' lo n).toNat = w.toNat / 2 ^ lo % 2 ^ n := by
  rw [BitVec.extractLsb'_toNat, Nat.shiftRight_eq_div_pow]

theorem bit_eq (w : Word) (k : Nat) : (w.getLsbD k).toNat = w.toNat / 2 ^ k % 2 := by
  simp [BitVec.getLsbD, Nat.testBit_eq_decide_div_mod_eq]
  rcases Nat.mod_two_eq_zero_or_one (w.toNat / 2 ^ k) with h | h <;> simp [h]

theorem bool_eq_of_toNat {a b : Bool} (h : a.toNat = b.toNat) : a = b := by
  cases a <;> cases b <;> simp_all

theorem reservedClear_iff (w : Word) (lowest : Nat) : reservedClear w lowest = true ↔ w.toNat / 2 ^ lowest = 0 := by
  rw [reservedClear, beq_iff_eq]
  constructor
  · intro h
    have := congrArg BitVec.toNat h
    simpa [Nat.shiftRight_eq_div_pow] using this
  · intro h
    apply BitVec.eq_of_toNat_eq
    simpa [Nat.shiftRight_eq_div_pow] using h

theorem opField_toNat {w : Word} {op : Opcode} (h : opcodeOf (opField w) = some op) : op.toByte.toNat = w.toNat % 256 := by
  rw [toByte_of_opcodeOf h, opField, extract_toNat]
  omega

/-! ## The checks of the decoder (30_encoding.md R80) -/

/-- The reserved bits are checked and are 0. -/
theorem withReserved_ok {w : Word} {k : Nat} {r : Except DecodeError Instr} (h : w.toNat / 2 ^ k = 0) :
    withReserved w k r = r := by
  rw [withReserved, if_pos ((reservedClear_iff w k).2 h)]

theorem withReserved_inv {w : Word} {k : Nat} {r : Except DecodeError Instr} {i : Instr}
    (h : withReserved w k r = .ok i) : w.toNat / 2 ^ k = 0 ∧ r = .ok i := by
  rw [withReserved] at h
  split at h
  · exact ⟨(reservedClear_iff w k).1 ‹_›, h⟩
  · cases h

/-- The count is checked and is in range. -/
theorem withCount_ok {n : Len} {i : Instr} (h : n.toNat ≤ 256) : withCount n i = .ok i :=
  if_pos (show n.toNat ≤ Config.dataCap from h)

theorem withCount_inv {n : Len} {i j : Instr} (h : withCount n i = .ok j) : n.toNat ≤ 256 ∧ j = i := by
  rw [withCount] at h
  split at h
  · cases h
    exact ⟨‹_›, rfl⟩
  · cases h

/-! ## Rows of the opcode table (30_encoding.md R81) -/

/-- The first reserved bit of the format of a row (R71). -/
def reservedFrom : Opcode → Nat
  | .nop => 8
  | .beginPack => 24
  | .packByte => 16
  | .packWord => 24
  | .packBytes => 17
  | .endPack => 8
  | .crcInit => 8
  | .crcFeed => 16
  | .valCrc => 8
  | .valResp => 24
  | .bitSet => 29
  | .bitGet => 29
  | .reqRdCoils => 16
  | .reqRdDisc => 16
  | .reqRdHregs => 16
  | .reqRdIregs => 16
  | .reqWrCoil => 17
  | .reqWrReg => 16
  | .reqWrCoils => 16
  | .reqWrRegs => 16

/-- A row's mask is the reserved bits and OP; its pattern is OP. -/
theorem row_mask : ∀ r ∈ Machine.opcodeRows,
    r.mask = (BitVec.allOnes 32 <<< reservedFrom r.op) ||| 0xFF#32 ∧ r.pattern = r.op.toByte.setWidth 32 := by decide

theorem ff_getLsbD : ∀ i, i < 32 → (0xFF#32).getLsbD i = decide (i < 8) := by decide

/-- What a mask of the reserved bits from `k` on and OP selects. -/
theorem selects_iff (w : Word) (b : Byte) {k : Nat} (hk : 8 ≤ k) (hk' : k ≤ 32) :
    w &&& ((BitVec.allOnes 32 <<< k) ||| 0xFF#32) = b.setWidth 32 ↔ opField w = b ∧ reservedClear w k = true := by
  have key : ∀ i, i < 32 → (w &&& ((BitVec.allOnes 32 <<< k) ||| 0xFF#32)).getLsbD i =
      (w.getLsbD i && (decide (k ≤ i) || decide (i < 8))) := by
    intro i hi
    simp only [BitVec.getLsbD_and, BitVec.getLsbD_or, BitVec.getLsbD_shiftLeft, ff_getLsbD i hi, BitVec.getLsbD_allOnes]
    by_cases h : k ≤ i
    · simp [h, hi, show ¬ i < k by omega, show i - k < 32 by omega]
    · simp [h, hi, show i < k by omega]
  rw [reservedClear, beq_iff_eq]
  constructor
  · intro h
    constructor
    · apply BitVec.eq_of_getLsbD_eq
      intro i hi
      have := congrArg (BitVec.getLsbD · i) h
      simp only [key i (by omega), BitVec.getLsbD_setWidth] at this
      rw [opField, BitVec.getLsbD_extractLsb']
      simp [hi, show i < 32 by omega] at this ⊢
      exact this
    · apply BitVec.eq_of_getLsbD_eq
      intro i hi
      rw [BitVec.getLsbD_ushiftRight]
      by_cases hki : k + i < 32
      · have := congrArg (BitVec.getLsbD · (k + i)) h
        simp only [key _ hki, BitVec.getLsbD_setWidth] at this
        rw [BitVec.getLsbD_of_ge b _ (by omega)] at this
        simpa using this
      · rw [BitVec.getLsbD_of_ge _ _ (by omega)]
        simp
  · rintro ⟨rfl, h⟩
    apply BitVec.eq_of_getLsbD_eq
    intro i hi
    rw [key i hi, BitVec.getLsbD_setWidth, opField, BitVec.getLsbD_extractLsb']
    by_cases h8 : i < 8
    · simp [h8, hi]
    · by_cases hki : k ≤ i
      · have := congrArg (BitVec.getLsbD · (i - k)) h
        rw [BitVec.getLsbD_ushiftRight] at this
        rw [show k + (i - k) = i by omega] at this
        simp [this]
      · simp [h8, hki]

end Sys2Proof
end

