-- ==== Sys2Proof/Laws/Memory.lean ====
section
/-! SUPPORT. The laws of a byte buffer: what a write changes and leaves, what a read may return, and the canonical form. -/

namespace Sys2Proof.Machine

/-! ## Read after write -/

@[simp] theorem Memory.lookup_nil (i : Nat) : Memory.lookup [] i = none := rfl

theorem Memory.lookup_write (m : Memory) (i j : Nat) (v : Byte) :
    (m.write i v).lookup j = if i = j then some v else m.lookup j := by
  induction m with
  | nil => simp [Memory.write, Memory.lookup]
  | cons c m ih =>
    obtain ⟨a, x⟩ := c
    simp only [Memory.write]
    split
    · simp [Memory.lookup]
    · split
      · subst_vars
        by_cases h : a = j <;> simp [Memory.lookup, h]
      · simp only [Memory.lookup, ih]
        by_cases ha : a = j
        · subst ha
          simp_all
        · simp [ha]

theorem Memory.lookup_write_self (m : Memory) (i : Nat) (v : Byte) : (m.write i v).lookup i = some v := by
  simp [Memory.lookup_write]

theorem Memory.lookup_write_other {i j : Nat} (m : Memory) (v : Byte) (h : i ≠ j) : (m.write i v).lookup j = m.lookup j := by
  simp [Memory.lookup_write, h]

theorem Memory.lookup_writeAll_outside (bs : List Byte) (m : Memory) (i j : Nat) (h : j < i ∨ i + bs.length ≤ j) :
    (m.writeAll i bs).lookup j = m.lookup j := by
  induction bs generalizing m i with
  | nil => rfl
  | cons b bs ih =>
    simp only [List.length_cons] at h
    rw [Memory.writeAll, ih _ _ (by omega), Memory.lookup_write_other _ _ (by omega)]

theorem Memory.lookup_writeAll_inside (bs : List Byte) (m : Memory) (i k : Nat) (b : Byte) (h : bs[k]? = some b) :
    (m.writeAll i bs).lookup (i + k) = some b := by
  induction bs generalizing m i k with
  | nil => simp at h
  | cons x bs ih =>
    cases k with
    | zero =>
      simp only [List.getElem?_cons_zero, Option.some.injEq] at h
      rw [Memory.writeAll, Memory.lookup_writeAll_outside _ _ _ _ (by omega)]
      simp [Memory.lookup_write_self, h]
    | succ k =>
      rw [Memory.writeAll, show i + (k + 1) = i + 1 + k by omega]
      exact ih _ _ _ (by simpa using h)

/-- What `writeAll` stores. -/
theorem Memory.writeAll_holds (m : Memory) (i : Nat) (bs : List Byte) : (m.writeAll i bs).holds i bs :=
  fun k b h => Memory.lookup_writeAll_inside bs m i k b h

/-- What `writeAll` leaves. -/
theorem Memory.writeAll_sameOutside (m : Memory) (i : Nat) (bs : List Byte) : m.sameOutside (m.writeAll i bs) i bs.length :=
  fun a h => Memory.lookup_writeAll_outside bs m i a h

theorem Memory.writeAll_append (m : Memory) (i : Nat) (as bs : List Byte) :
    m.writeAll i (as ++ bs) = (m.writeAll i as).writeAll (i + as.length) bs := by
  induction as generalizing m i with
  | nil => rfl
  | cons a as ih => simp [Memory.writeAll, ih, Nat.add_assoc, Nat.add_comm 1]

/-- An index is listed after `writeAll` where it is one of the written, or was listed before. -/
theorem Memory.isSome_lookup_writeAll (m : Memory) (i : Nat) (bs : List Byte) (a : Nat)
    (h : (i ≤ a ∧ a < i + bs.length) ∨ (m.lookup a).isSome = true) : ((m.writeAll i bs).lookup a).isSome = true := by
  by_cases hin : i ≤ a ∧ a < i + bs.length
  · have hk : bs[a - i]? = some (bs[a - i]'(by omega)) := List.getElem?_eq_getElem _
    have := Memory.lookup_writeAll_inside bs m i (a - i) _ hk
    rw [show i + (a - i) = a by omega] at this
    simp [this]
  · rw [Memory.lookup_writeAll_outside _ _ _ _ (by omega)]
    exact h.resolve_left hin

/-! ## Reads -/

@[simp] theorem Memory.readSeq_length (m : Memory) (i n d : Nat) : (m.readSeq i n d).1.length = n := by
  induction n generalizing i d with
  | zero => rfl
  | succ n ih => simp [Memory.readSeq, ih]

theorem Memory.read_written {m : Memory} {i : Nat} {v : Byte} (h : m.lookup i = some v) (d : Nat) : m.read i d = (v, d) := by
  simp [Memory.read, h]

theorem Memory.read_unwritten {m : Memory} {i : Nat} (h : m.lookup i = none) (d : Nat) :
    m.read i d = (Config.bufReset d, d + 1) := by
  simp [Memory.read, h]

/-- A read returns the written byte, if there is one. -/
theorem Memory.read_mayRead (m : Memory) (i d : Nat) {v : Byte} (h : m.lookup i = some v) : (m.read i d).1 = v := by
  simp [Memory.read, h]

/-- One read may return only what `mayRead` says. -/
theorem Memory.read_mayRead_one (m : Memory) (i d : Nat) : m.mayRead i [(m.read i d).1] := by
  intro k b v hb hv
  cases k with
  | zero =>
    simp only [List.getElem?_cons_zero, Option.some.injEq] at hb
    rw [← hb]
    exact Memory.read_mayRead _ _ _ hv
  | succ k => simp at hb

/-- A sequence of reads may return only what `mayRead` says. -/
theorem Memory.readSeq_mayRead (m : Memory) (i n d : Nat) : m.mayRead i (m.readSeq i n d).1 := by
  induction n generalizing i d with
  | zero => intro k b v h; simp [Memory.readSeq] at h
  | succ n ih =>
    intro k b v hb hv
    cases k with
    | zero =>
      simp only [Memory.readSeq, List.getElem?_cons_zero, Option.some.injEq] at hb
      rw [← hb]
      exact Memory.read_mayRead m i d hv
    | succ k =>
      simp only [Memory.readSeq, List.getElem?_cons_succ] at hb
      exact ih (i + 1) _ k b v hb (by rw [← hv]; congr 1; omega)

theorem Memory.holds_cons {m : Memory} {i : Nat} {b : Byte} {bs : List Byte} :
    m.holds i (b :: bs) ↔ m.lookup i = some b ∧ m.holds (i + 1) bs := by
  constructor
  · intro h
    refine ⟨by simpa using h 0 b rfl, fun k x hx => ?_⟩
    rw [show i + 1 + k = i + (k + 1) by omega]
    exact h (k + 1) x (by simpa using hx)
  · rintro ⟨h0, h1⟩ k x hx
    cases k with
    | zero => simp_all
    | succ k =>
      rw [show i + (k + 1) = i + 1 + k by omega]
      exact h1 k x (by simpa using hx)

/-- Reads of written bytes return them and draw nothing. -/
theorem Memory.readSeq_holds {m : Memory} {i : Nat} {bs : List Byte} (h : m.holds i bs) (d : Nat) :
    m.readSeq i bs.length d = (bs, d) := by
  induction bs generalizing i with
  | nil => rfl
  | cons b bs ih =>
    obtain ⟨h0, h1⟩ := Memory.holds_cons.1 h
    simp [Memory.readSeq, Memory.read_written h0, ih h1]

theorem Memory.holds_append {m : Memory} {i : Nat} {as bs : List Byte} :
    m.holds i (as ++ bs) ↔ m.holds i as ∧ m.holds (i + as.length) bs := by
  induction as generalizing i with
  | nil => simp [Memory.holds]
  | cons a as ih => simp [Memory.holds_cons, ih, and_assoc, Nat.add_assoc, Nat.add_comm 1]

theorem Memory.mayRead_append {m : Memory} {i : Nat} {as bs : List Byte} (ha : m.mayRead i as)
    (hb : m.mayRead (i + as.length) bs) : m.mayRead i (as ++ bs) := by
  intro k b v hk hv
  by_cases h : k < as.length
  · exact ha k b v (by rwa [List.getElem?_append_left h] at hk) hv
  · refine hb (k - as.length) b v (by rwa [List.getElem?_append_right (by omega)] at hk) ?_
    rw [show i + as.length + (k - as.length) = i + k by omega]
    exact hv

/-- What is written is all that may be read. -/
theorem Memory.eq_of_holds_mayRead {m : Memory} {i : Nat} {as bs : List Byte} (h : m.holds i as) (hr : m.mayRead i bs)
    (hl : bs.length = as.length) : bs = as := by
  apply List.ext_getElem hl
  intro k h1 h2
  exact hr k _ _ (List.getElem?_eq_getElem h1) (h k _ (List.getElem?_eq_getElem h2))

/-- What a buffer holds outside the changed indices, it still holds. -/
theorem Memory.holds_of_sameOutside {m m' : Memory} {i n j : Nat} {bs : List Byte} (hs : m.sameOutside m' i n)
    (h : m.holds j bs) (hd : j + bs.length ≤ i ∨ i + n ≤ j) : m'.holds j bs := by
  intro k b hb
  have hk : k < bs.length := by
    rw [List.getElem?_eq_some_iff] at hb
    exact hb.1
  rw [hs _ (by omega)]
  exact h k b hb

/-- A buffer whose indices from `i` on are all listed holds some bytes there. -/
theorem Memory.exists_holds {m : Memory} {n : Nat} (h : ∀ k, k < n → (m.lookup k).isSome = true) :
    ∃ bs, bs.length = n ∧ m.holds 0 bs := by
  refine ⟨(m.readSeq 0 n 0).1, by simp, fun k b hb => ?_⟩
  have hk : k < n := by
    rw [List.getElem?_eq_some_iff] at hb
    simpa using hb.1
  obtain ⟨v, hv⟩ := Option.isSome_iff_exists.1 (h k hk)
  rw [Nat.zero_add, hv, Memory.readSeq_mayRead m 0 n 0 k b v hb (by simpa using hv)]

/-! ## The canonical form -/

theorem Memory.wfFrom_mono {m : Memory} {a b : Nat} (hab : a ≤ b) (h : m.wfFrom b = true) : m.wfFrom a = true := by
  cases m with
  | nil => rfl
  | cons c m =>
    obtain ⟨i, v⟩ := c
    simp only [Memory.wfFrom, Bool.and_eq_true, decide_eq_true_eq] at h ⊢
    exact ⟨⟨by omega, h.1.2⟩, h.2⟩

theorem Memory.wfFrom_write {m : Memory} {a i : Nat} (v : Byte) (h : m.wfFrom a = true) (hai : a ≤ i)
    (hi : i < Config.frameCap) : (m.write i v).wfFrom a = true := by
  induction m generalizing a with
  | nil => simp [Memory.write, Memory.wfFrom, hai, hi]
  | cons c m ih =>
    obtain ⟨j, x⟩ := c
    simp only [Memory.wfFrom, Bool.and_eq_true, decide_eq_true_eq] at h
    simp only [Memory.write]
    split
    · rename_i hij
      simp only [Memory.wfFrom, Bool.and_eq_true, decide_eq_true_eq]
      exact ⟨⟨hai, hi⟩, ⟨by omega, h.1.2⟩, h.2⟩
    · split
      · subst_vars
        simp only [Memory.wfFrom, Bool.and_eq_true, decide_eq_true_eq]
        exact ⟨⟨hai, hi⟩, h.2⟩
      · simp only [Memory.wfFrom, Bool.and_eq_true, decide_eq_true_eq]
        exact ⟨h.1, ih h.2 (by omega)⟩

/-- A write inside the buffer keeps the canonical form. -/
theorem Memory.wf_write {m : Memory} {i : Nat} (v : Byte) (h : m.wf = true) (hi : i < 256) : (m.write i v).wf = true :=
  Memory.wfFrom_write v h (Nat.zero_le i) hi

/-- Writes inside the buffer keep the canonical form. -/
theorem Memory.wf_writeAll {m : Memory} {i : Nat} {bs : List Byte} (h : m.wf = true) (hi : i + bs.length ≤ 256) :
    (m.writeAll i bs).wf = true := by
  induction bs generalizing m i with
  | nil => exact h
  | cons b bs ih =>
    simp only [List.length_cons] at hi
    exact ih (Memory.wf_write b h (by omega)) (by omega)

@[simp] theorem Memory.wf_nil : Memory.wf [] = true := rfl

/-- Buffers in the canonical form that read alike are equal: the form has one list for each contents. -/
theorem Memory.lookup_below {m : Memory} {a i : Nat} (h : m.wfFrom a = true) (hi : i < a) : m.lookup i = none := by
  induction m generalizing a with
  | nil => rfl
  | cons c m ih =>
    obtain ⟨j, x⟩ := c
    simp only [Memory.wfFrom, Bool.and_eq_true, decide_eq_true_eq] at h
    have hji : j ≠ i := by omega
    simp only [Memory.lookup, hji, if_false]
    exact ih h.2 (by omega)

theorem Memory.ext_lookup {m m' : Memory} {a : Nat} (h : m.wfFrom a = true) (h' : m'.wfFrom a = true)
    (heq : ∀ i, m.lookup i = m'.lookup i) : m = m' := by
  induction m generalizing m' a with
  | nil =>
    cases m' with
    | nil => rfl
    | cons c m' => simpa [Memory.lookup] using heq c.1
  | cons c m ih =>
    obtain ⟨j, x⟩ := c
    cases m' with
    | nil => simpa [Memory.lookup] using heq j
    | cons c' m' =>
      obtain ⟨j', x'⟩ := c'
      simp only [Memory.wfFrom, Bool.and_eq_true, decide_eq_true_eq] at h h'
      have hj : j = j' := by
        rcases Nat.lt_trichotomy j j' with hlt | he | hgt
        · have := heq j
          simp [Memory.lookup, show ¬ j' = j by omega, Memory.lookup_below h'.2 (show j < j' + 1 by omega)] at this
        · exact he
        · have := heq j'
          simp [Memory.lookup, show ¬ j = j' by omega, Memory.lookup_below h.2 (show j' < j + 1 by omega)] at this
      subst hj
      have hx : x = x' := by simpa [Memory.lookup] using heq j
      subst hx
      rw [ih h.2 h'.2 fun i => ?_]
      have := heq i
      by_cases hi : j = i
      · subst hi
        rw [Memory.lookup_below h.2 (by omega), Memory.lookup_below h'.2 (by omega)]
      · simpa [Memory.lookup, hi] using this

end Sys2Proof.Machine
end

