-- ==== Sys2Proof/Laws/State.lean ====
section
/-! SUPPORT. One lemma per field per update of the state, so that no later proof unfolds a record update. -/

namespace Sys2Proof.Machine

/-! `setResult` writes RESULT alone (10_state.md R25). -/

@[simp] theorem State.setResult_arg (s : State) (k : ResultKind) (e : Byte) (b : Bool) : (s.setResult k e b).arg =
    s.arg := rfl
@[simp] theorem State.setResult_status (s : State) (k : ResultKind) (e : Byte) (b : Bool) : (s.setResult k e b).status =
    s.status := rfl
@[simp] theorem State.setResult_result (s : State) (k : ResultKind) (e : Byte) (b : Bool) : (s.setResult k e b).result =
    { kind := kindCode k, exc := e, bit := b } := rfl
@[simp] theorem State.setResult_crc (s : State) (k : ResultKind) (e : Byte) (b : Bool) : (s.setResult k e b).crc =
    s.crc := rfl
@[simp] theorem State.setResult_txlen (s : State) (k : ResultKind) (e : Byte) (b : Bool) : (s.setResult k e b).txlen =
    s.txlen := rfl
@[simp] theorem State.setResult_rxlen (s : State) (k : ResultKind) (e : Byte) (b : Bool) : (s.setResult k e b).rxlen =
    s.rxlen := rfl
@[simp] theorem State.setResult_pld (s : State) (k : ResultKind) (e : Byte) (b : Bool) : (s.setResult k e b).pld =
    s.pld := rfl
@[simp] theorem State.setResult_finfo (s : State) (k : ResultKind) (e : Byte) (b : Bool) : (s.setResult k e b).finfo =
    s.finfo := rfl
@[simp] theorem State.setResult_pend (s : State) (k : ResultKind) (e : Byte) (b : Bool) : (s.setResult k e b).pend =
    s.pend := rfl
@[simp] theorem State.setResult_tx (s : State) (k : ResultKind) (e : Byte) (b : Bool) : (s.setResult k e b).tx =
    s.tx := rfl
@[simp] theorem State.setResult_rx (s : State) (k : ResultKind) (e : Byte) (b : Bool) : (s.setResult k e b).rx =
    s.rx := rfl
@[simp] theorem State.setResult_data (s : State) (k : ResultKind) (e : Byte) (b : Bool) : (s.setResult k e b).data =
    s.data := rfl
@[simp] theorem State.setResult_inputs (s : State) (k : ResultKind) (e : Byte) (b : Bool) : (s.setResult k e b).inputs =
    s.inputs := rfl
@[simp] theorem State.setResult_latency (s : State) (k : ResultKind) (e : Byte) (b : Bool) : (s.setResult k e b).latency =
    s.latency := rfl
@[simp] theorem State.setResult_rdata (s : State) (k : ResultKind) (e : Byte) (b : Bool) : (s.setResult k e b).rdata =
    s.rdata := rfl
@[simp] theorem State.setResult_draws (s : State) (k : ResultKind) (e : Byte) (b : Bool) : (s.setResult k e b).draws =
    s.draws := rfl

/-! A fatal fault keeps RX, RXLEN and ARG (60_exceptions.md R205). -/

@[simp] theorem State.raiseFatal_arg (s : State) (c : FatalCause) (w : Word) : (s.raiseFatal c w).arg = s.arg := rfl
@[simp] theorem State.raiseFatal_status (s : State) (c : FatalCause) (w : Word) : (s.raiseFatal c w).status =
    { s.status with fatal := true, fcause := causeCode c } := rfl
@[simp] theorem State.raiseFatal_result (s : State) (c : FatalCause) (w : Word) : (s.raiseFatal c w).result =
    { kind := Config.postFault 4 (s.draws + 2), exc := Config.postFault 8 (s.draws + 3), bit := (Config.postFault 1 (s.draws + 4)).getLsbD 0 } := rfl
@[simp] theorem State.raiseFatal_crc (s : State) (c : FatalCause) (w : Word) : (s.raiseFatal c w).crc =
    Config.postFault 16 (s.draws + 1) := rfl
@[simp] theorem State.raiseFatal_txlen (s : State) (c : FatalCause) (w : Word) : (s.raiseFatal c w).txlen =
    Config.postFault 9 s.draws := rfl
@[simp] theorem State.raiseFatal_rxlen (s : State) (c : FatalCause) (w : Word) : (s.raiseFatal c w).rxlen =
    s.rxlen := rfl
@[simp] theorem State.raiseFatal_pld (s : State) (c : FatalCause) (w : Word) : (s.raiseFatal c w).pld =
    { plen := Config.postFault 9 (s.draws + 5), poff := Config.postFault 8 (s.draws + 6) } := rfl
@[simp] theorem State.raiseFatal_finfo (s : State) (c : FatalCause) (w : Word) : (s.raiseFatal c w).finfo = w := rfl
@[simp] theorem State.raiseFatal_pend (s : State) (c : FatalCause) (w : Word) : (s.raiseFatal c w).pend = s.pend := rfl
@[simp] theorem State.raiseFatal_tx (s : State) (c : FatalCause) (w : Word) : (s.raiseFatal c w).tx = [] := rfl
@[simp] theorem State.raiseFatal_rx (s : State) (c : FatalCause) (w : Word) : (s.raiseFatal c w).rx = s.rx := rfl
@[simp] theorem State.raiseFatal_data (s : State) (c : FatalCause) (w : Word) : (s.raiseFatal c w).data = [] := rfl
@[simp] theorem State.raiseFatal_inputs (s : State) (c : FatalCause) (w : Word) : (s.raiseFatal c w).inputs =
    s.inputs := rfl
@[simp] theorem State.raiseFatal_latency (s : State) (c : FatalCause) (w : Word) : (s.raiseFatal c w).latency =
    s.latency := rfl
@[simp] theorem State.raiseFatal_rdata (s : State) (c : FatalCause) (w : Word) : (s.raiseFatal c w).rdata =
    s.rdata := rfl
@[simp] theorem State.raiseFatal_draws (s : State) (c : FatalCause) (w : Word) : (s.raiseFatal c w).draws =
    s.draws + 7 := rfl

/-! Reset writes every register and buffer of the block (70_reset_and_hazards.md R230). -/

@[simp] theorem State.resetBlock_arg (s : State) : s.resetBlock.arg = 0#32 := rfl
@[simp] theorem State.resetBlock_status (s : State) : s.resetBlock.status =
    { busy := false, fatal := false, fcause := 0#4 } := rfl
@[simp] theorem State.resetBlock_result (s : State) : s.resetBlock.result =
    { kind := 0#4, exc := 0#8, bit := false } := rfl
@[simp] theorem State.resetBlock_crc (s : State) : s.resetBlock.crc = Config.crcInit := rfl
@[simp] theorem State.resetBlock_txlen (s : State) : s.resetBlock.txlen = 0#9 := rfl
@[simp] theorem State.resetBlock_rxlen (s : State) : s.resetBlock.rxlen = 0#9 := rfl
@[simp] theorem State.resetBlock_pld (s : State) : s.resetBlock.pld = { plen := 0#9, poff := 0#8 } := rfl
@[simp] theorem State.resetBlock_finfo (s : State) : s.resetBlock.finfo = 0#32 := rfl
@[simp] theorem State.resetBlock_pend (s : State) : s.resetBlock.pend = none := rfl
@[simp] theorem State.resetBlock_tx (s : State) : s.resetBlock.tx = [] := rfl
@[simp] theorem State.resetBlock_rx (s : State) : s.resetBlock.rx = [] := rfl
@[simp] theorem State.resetBlock_data (s : State) : s.resetBlock.data = [] := rfl
@[simp] theorem State.resetBlock_inputs (s : State) : s.resetBlock.inputs = s.inputs := rfl
@[simp] theorem State.resetBlock_latency (s : State) : s.resetBlock.latency = 0 := rfl
@[simp] theorem State.resetBlock_rdata (s : State) : s.resetBlock.rdata = s.rdata := rfl
@[simp] theorem State.resetBlock_draws (s : State) : s.resetBlock.draws = s.draws := rfl

/-! A CMD write (10_state.md R22). -/

@[simp] theorem State.handCommand_arg (s : State) (w : Word) (l : Nat) : (s.handCommand w l).arg = s.arg := rfl
@[simp] theorem State.handCommand_status (s : State) (w : Word) (l : Nat) : (s.handCommand w l).status =
    { s.status with busy := true } := rfl
@[simp] theorem State.handCommand_result (s : State) (w : Word) (l : Nat) : (s.handCommand w l).result = s.result := rfl
@[simp] theorem State.handCommand_crc (s : State) (w : Word) (l : Nat) : (s.handCommand w l).crc = s.crc := rfl
@[simp] theorem State.handCommand_txlen (s : State) (w : Word) (l : Nat) : (s.handCommand w l).txlen = s.txlen := rfl
@[simp] theorem State.handCommand_rxlen (s : State) (w : Word) (l : Nat) : (s.handCommand w l).rxlen = s.rxlen := rfl
@[simp] theorem State.handCommand_pld (s : State) (w : Word) (l : Nat) : (s.handCommand w l).pld = s.pld := rfl
@[simp] theorem State.handCommand_finfo (s : State) (w : Word) (l : Nat) : (s.handCommand w l).finfo = s.finfo := rfl
@[simp] theorem State.handCommand_pend (s : State) (w : Word) (l : Nat) : (s.handCommand w l).pend = some w := rfl
@[simp] theorem State.handCommand_tx (s : State) (w : Word) (l : Nat) : (s.handCommand w l).tx = s.tx := rfl
@[simp] theorem State.handCommand_rx (s : State) (w : Word) (l : Nat) : (s.handCommand w l).rx = s.rx := rfl
@[simp] theorem State.handCommand_data (s : State) (w : Word) (l : Nat) : (s.handCommand w l).data = s.data := rfl
@[simp] theorem State.handCommand_inputs (s : State) (w : Word) (l : Nat) : (s.handCommand w l).inputs = s.inputs := rfl
@[simp] theorem State.handCommand_latency (s : State) (w : Word) (l : Nat) : (s.handCommand w l).latency = l := rfl
@[simp] theorem State.handCommand_rdata (s : State) (w : Word) (l : Nat) : (s.handCommand w l).rdata = s.rdata := rfl
@[simp] theorem State.handCommand_draws (s : State) (w : Word) (l : Nat) : (s.handCommand w l).draws = s.draws := rfl

/-! The end of the engine step (10_state.md R22). -/

@[simp] theorem State.retire_arg (s : State) : s.retire.arg = s.arg := rfl
@[simp] theorem State.retire_status (s : State) : s.retire.status = { s.status with busy := false } := rfl
@[simp] theorem State.retire_result (s : State) : s.retire.result = s.result := rfl
@[simp] theorem State.retire_crc (s : State) : s.retire.crc = s.crc := rfl
@[simp] theorem State.retire_txlen (s : State) : s.retire.txlen = s.txlen := rfl
@[simp] theorem State.retire_rxlen (s : State) : s.retire.rxlen = s.rxlen := rfl
@[simp] theorem State.retire_pld (s : State) : s.retire.pld = s.pld := rfl
@[simp] theorem State.retire_finfo (s : State) : s.retire.finfo = s.finfo := rfl
@[simp] theorem State.retire_pend (s : State) : s.retire.pend = none := rfl
@[simp] theorem State.retire_tx (s : State) : s.retire.tx = s.tx := rfl
@[simp] theorem State.retire_rx (s : State) : s.retire.rx = s.rx := rfl
@[simp] theorem State.retire_data (s : State) : s.retire.data = s.data := rfl
@[simp] theorem State.retire_inputs (s : State) : s.retire.inputs = s.inputs := rfl
@[simp] theorem State.retire_latency (s : State) : s.retire.latency = 0 := rfl
@[simp] theorem State.retire_rdata (s : State) : s.retire.rdata = s.rdata := rfl
@[simp] theorem State.retire_draws (s : State) : s.retire.draws = s.draws := rfl

/-! Taking an input. -/

@[simp] theorem State.takeInput_arg (s : State) : s.takeInput.arg = s.arg := rfl
@[simp] theorem State.takeInput_status (s : State) : s.takeInput.status = s.status := rfl
@[simp] theorem State.takeInput_result (s : State) : s.takeInput.result = s.result := rfl
@[simp] theorem State.takeInput_crc (s : State) : s.takeInput.crc = s.crc := rfl
@[simp] theorem State.takeInput_txlen (s : State) : s.takeInput.txlen = s.txlen := rfl
@[simp] theorem State.takeInput_rxlen (s : State) : s.takeInput.rxlen = s.rxlen := rfl
@[simp] theorem State.takeInput_pld (s : State) : s.takeInput.pld = s.pld := rfl
@[simp] theorem State.takeInput_finfo (s : State) : s.takeInput.finfo = s.finfo := rfl
@[simp] theorem State.takeInput_pend (s : State) : s.takeInput.pend = s.pend := rfl
@[simp] theorem State.takeInput_tx (s : State) : s.takeInput.tx = s.tx := rfl
@[simp] theorem State.takeInput_rx (s : State) : s.takeInput.rx = s.rx := rfl
@[simp] theorem State.takeInput_data (s : State) : s.takeInput.data = s.data := rfl
@[simp] theorem State.takeInput_inputs (s : State) : s.takeInput.inputs = s.inputs.tail := rfl
@[simp] theorem State.takeInput_latency (s : State) : s.takeInput.latency = s.latency - 1 := rfl
@[simp] theorem State.takeInput_rdata (s : State) : s.takeInput.rdata = s.rdata := rfl
@[simp] theorem State.takeInput_draws (s : State) : s.takeInput.draws = s.draws := rfl

/-! The end of VAL_RESP writes PLD and RESULT (42_validator.md R142). -/

@[simp] theorem State.finishResponse_arg (s : State) (n : Len) (o : Byte) (k : ResultKind) (e : Byte) : (s.finishResponse n o k e).arg =
    s.arg := rfl
@[simp] theorem State.finishResponse_status (s : State) (n : Len) (o : Byte) (k : ResultKind) (e : Byte) : (s.finishResponse n o k e).status =
    s.status := rfl
@[simp] theorem State.finishResponse_result (s : State) (n : Len) (o : Byte) (k : ResultKind) (e : Byte) : (s.finishResponse n o k e).result =
    { kind := kindCode k, exc := e, bit := false } := rfl
@[simp] theorem State.finishResponse_crc (s : State) (n : Len) (o : Byte) (k : ResultKind) (e : Byte) : (s.finishResponse n o k e).crc =
    s.crc := rfl
@[simp] theorem State.finishResponse_txlen (s : State) (n : Len) (o : Byte) (k : ResultKind) (e : Byte) : (s.finishResponse n o k e).txlen =
    s.txlen := rfl
@[simp] theorem State.finishResponse_rxlen (s : State) (n : Len) (o : Byte) (k : ResultKind) (e : Byte) : (s.finishResponse n o k e).rxlen =
    s.rxlen := rfl
@[simp] theorem State.finishResponse_pld (s : State) (n : Len) (o : Byte) (k : ResultKind) (e : Byte) : (s.finishResponse n o k e).pld =
    { plen := n, poff := o } := rfl
@[simp] theorem State.finishResponse_finfo (s : State) (n : Len) (o : Byte) (k : ResultKind) (e : Byte) : (s.finishResponse n o k e).finfo =
    s.finfo := rfl
@[simp] theorem State.finishResponse_pend (s : State) (n : Len) (o : Byte) (k : ResultKind) (e : Byte) : (s.finishResponse n o k e).pend =
    s.pend := rfl
@[simp] theorem State.finishResponse_tx (s : State) (n : Len) (o : Byte) (k : ResultKind) (e : Byte) : (s.finishResponse n o k e).tx =
    s.tx := rfl
@[simp] theorem State.finishResponse_rx (s : State) (n : Len) (o : Byte) (k : ResultKind) (e : Byte) : (s.finishResponse n o k e).rx =
    s.rx := rfl
@[simp] theorem State.finishResponse_data (s : State) (n : Len) (o : Byte) (k : ResultKind) (e : Byte) : (s.finishResponse n o k e).data =
    s.data := rfl
@[simp] theorem State.finishResponse_inputs (s : State) (n : Len) (o : Byte) (k : ResultKind) (e : Byte) : (s.finishResponse n o k e).inputs =
    s.inputs := rfl
@[simp] theorem State.finishResponse_latency (s : State) (n : Len) (o : Byte) (k : ResultKind) (e : Byte) : (s.finishResponse n o k e).latency =
    s.latency := rfl
@[simp] theorem State.finishResponse_rdata (s : State) (n : Len) (o : Byte) (k : ResultKind) (e : Byte) : (s.finishResponse n o k e).rdata =
    s.rdata := rfl
@[simp] theorem State.finishResponse_draws (s : State) (n : Len) (o : Byte) (k : ResultKind) (e : Byte) : (s.finishResponse n o k e).draws =
    s.draws := rfl

/-! Operations of the host put first. -/

@[simp] theorem State.pushOps_arg (s : State) (ops : List HostOp) : (s.pushOps ops).arg = s.arg := rfl
@[simp] theorem State.pushOps_status (s : State) (ops : List HostOp) : (s.pushOps ops).status = s.status := rfl
@[simp] theorem State.pushOps_result (s : State) (ops : List HostOp) : (s.pushOps ops).result = s.result := rfl
@[simp] theorem State.pushOps_crc (s : State) (ops : List HostOp) : (s.pushOps ops).crc = s.crc := rfl
@[simp] theorem State.pushOps_txlen (s : State) (ops : List HostOp) : (s.pushOps ops).txlen = s.txlen := rfl
@[simp] theorem State.pushOps_rxlen (s : State) (ops : List HostOp) : (s.pushOps ops).rxlen = s.rxlen := rfl
@[simp] theorem State.pushOps_pld (s : State) (ops : List HostOp) : (s.pushOps ops).pld = s.pld := rfl
@[simp] theorem State.pushOps_finfo (s : State) (ops : List HostOp) : (s.pushOps ops).finfo = s.finfo := rfl
@[simp] theorem State.pushOps_pend (s : State) (ops : List HostOp) : (s.pushOps ops).pend = s.pend := rfl
@[simp] theorem State.pushOps_tx (s : State) (ops : List HostOp) : (s.pushOps ops).tx = s.tx := rfl
@[simp] theorem State.pushOps_rx (s : State) (ops : List HostOp) : (s.pushOps ops).rx = s.rx := rfl
@[simp] theorem State.pushOps_data (s : State) (ops : List HostOp) : (s.pushOps ops).data = s.data := rfl
@[simp] theorem State.pushOps_inputs (s : State) (ops : List HostOp) : (s.pushOps ops).inputs =
    ops.map (Input.access .host) ++ s.inputs := rfl
@[simp] theorem State.pushOps_latency (s : State) (ops : List HostOp) : (s.pushOps ops).latency = s.latency := rfl
@[simp] theorem State.pushOps_rdata (s : State) (ops : List HostOp) : (s.pushOps ops).rdata = s.rdata := rfl
@[simp] theorem State.pushOps_draws (s : State) (ops : List HostOp) : (s.pushOps ops).draws = s.draws := rfl

/-! The steps of BEGIN_PACK (40_frame_codec.md R111). -/

@[simp] theorem beginPackSteps_arg (sa fc : Byte) (s : State) : (beginPackSteps sa fc s).arg = s.arg := rfl
@[simp] theorem beginPackSteps_status (sa fc : Byte) (s : State) : (beginPackSteps sa fc s).status = s.status := rfl
@[simp] theorem beginPackSteps_result (sa fc : Byte) (s : State) : (beginPackSteps sa fc s).result = s.result := rfl
@[simp] theorem beginPackSteps_crc (sa fc : Byte) (s : State) : (beginPackSteps sa fc s).crc = s.crc := rfl
@[simp] theorem beginPackSteps_txlen (sa fc : Byte) (s : State) : (beginPackSteps sa fc s).txlen = 2#9 := rfl
@[simp] theorem beginPackSteps_rxlen (sa fc : Byte) (s : State) : (beginPackSteps sa fc s).rxlen = s.rxlen := rfl
@[simp] theorem beginPackSteps_pld (sa fc : Byte) (s : State) : (beginPackSteps sa fc s).pld = s.pld := rfl
@[simp] theorem beginPackSteps_finfo (sa fc : Byte) (s : State) : (beginPackSteps sa fc s).finfo = s.finfo := rfl
@[simp] theorem beginPackSteps_pend (sa fc : Byte) (s : State) : (beginPackSteps sa fc s).pend = s.pend := rfl
@[simp] theorem beginPackSteps_tx (sa fc : Byte) (s : State) : (beginPackSteps sa fc s).tx = (s.tx.write 0 sa).write 1 fc := rfl
@[simp] theorem beginPackSteps_rx (sa fc : Byte) (s : State) : (beginPackSteps sa fc s).rx = s.rx := rfl
@[simp] theorem beginPackSteps_data (sa fc : Byte) (s : State) : (beginPackSteps sa fc s).data = s.data := rfl
@[simp] theorem beginPackSteps_inputs (sa fc : Byte) (s : State) : (beginPackSteps sa fc s).inputs = s.inputs := rfl
@[simp] theorem beginPackSteps_latency (sa fc : Byte) (s : State) : (beginPackSteps sa fc s).latency = s.latency := rfl
@[simp] theorem beginPackSteps_rdata (sa fc : Byte) (s : State) : (beginPackSteps sa fc s).rdata = s.rdata := rfl
@[simp] theorem beginPackSteps_draws (sa fc : Byte) (s : State) : (beginPackSteps sa fc s).draws = s.draws := rfl

end Sys2Proof.Machine
end

