-- ==== Sys2Proof/Laws/Ops.lean ====
section
/-! SUPPORT. What each shared operation can do, said once: later proofs cite these instead of unfolding the operation. -/

namespace Sys2Proof.Machine

/-! ## Lengths -/

/-- A length inside the buffer does not wrap. -/
theorem len_add {x : Len} {n : Nat} (h : x.toNat + n ≤ 256) : (x + BitVec.ofNat 9 n).toNat = x.toNat + n := by
  simp only [BitVec.toNat_add, BitVec.toNat_ofNat]
  omega

/-! ## The pack primitives -/

theorem appendBytes_ok {bs : List Byte} {s : State} (h : s.txlen.toNat + bs.length ≤ 256) :
    appendBytes bs s =
      .ok { s with tx := s.tx.writeAll s.txlen.toNat bs, txlen := s.txlen + BitVec.ofNat 9 bs.length } := by
  have : ¬ s.txlen.toNat + bs.length > Config.frameCap := by simpa [Config.frameCap] using h
  simp [appendBytes, this]

theorem appendBytes_error {bs : List Byte} {s : State} (h : 256 < s.txlen.toNat + bs.length) :
    appendBytes bs s = .error .txCap := by
  simp [appendBytes, Config.frameCap, h]

theorem packWordSteps_ok {w : Half} {s : State} (h : s.txlen.toNat + 2 ≤ 256) :
    packWordSteps w s = .ok { s with tx := s.tx.writeAll s.txlen.toNat (wordBytes w), txlen := s.txlen + 2#9 } :=
  appendBytes_ok (bs := wordBytes w) h

theorem packWordSteps_error {w : Half} {s : State} (h : 256 < s.txlen.toNat + 2) : packWordSteps w s = .error .txCap :=
  appendBytes_error (bs := wordBytes w) h

theorem packBytesSteps_ok {n : Nat} {s : State} (h : s.txlen.toNat + n ≤ 256) :
    packBytesSteps n s =
      .ok { s with
        tx := s.tx.writeAll s.txlen.toNat (s.data.readSeq 0 n s.draws).1
        txlen := s.txlen + BitVec.ofNat 9 n
        draws := (s.data.readSeq 0 n s.draws).2 } := by
  have : ¬ s.txlen.toNat + n > Config.frameCap := by simpa [Config.frameCap] using h
  simp only [packBytesSteps, this, if_false]
  rw [appendBytes_ok (by simpa using h)]
  simp

theorem packBytesSteps_error {n : Nat} {s : State} (h : 256 < s.txlen.toNat + n) :
    packBytesSteps n s = .error .txCap := by
  simp [packBytesSteps, Config.frameCap, h]

/-- The frame END_PACK reads. -/
def frameRead (s : State) : List Byte := (s.tx.readSeq 0 s.txlen.toNat s.draws).1

theorem endPackSteps_ok {s : State} (h : s.txlen.toNat + 2 ≤ 256) :
    endPackSteps s =
      .ok { s with
        tx := s.tx.writeAll s.txlen.toNat [crcLow (crc16 (frameRead s)), crcHigh (crc16 (frameRead s))]
        txlen := s.txlen + 2#9
        crc := crc16 (frameRead s)
        draws := (s.tx.readSeq 0 s.txlen.toNat s.draws).2 } := by
  simp only [endPackSteps]
  rw [appendBytes_ok (by simpa using h)]
  rfl

theorem endPackSteps_error {s : State} (h : 256 < s.txlen.toNat + 2) : endPackSteps s = .error .txCap := by
  simp only [endPackSteps]
  rw [appendBytes_error (by simpa using h)]
  rfl

@[simp] theorem finishPack_ok (w : Word) (s t : State) : finishPack w s (.ok t) = .next (t.setResult .ok 0#8 false) := rfl

@[simp] theorem finishPack_error (w : Word) (s : State) (c : FatalCause) :
    finishPack w s (.error c) = .next (s.raiseFatal c w) := rfl

/-- `setResult(OK, 0, 0)`, as a record update. -/
theorem setResult_ok (s : State) : s.setResult .ok 0#8 false = { s with result := okResult } := rfl

@[simp] theorem except_bind_ok {ε α β : Type} (a : α) (f : α → Except ε β) : (Except.ok a).bind f = f a := rfl

@[simp] theorem except_bind_error {ε α β : Type} (e : ε) (f : α → Except ε β) :
    (Except.error e : Except ε α).bind f = .error e := rfl

/-! ## The outcome -/

@[simp] theorem afterNext_next (f : State → State) (s : State) : afterNext f (.next s) = .next (f s) := rfl

/-! ## Bits -/

theorem getLsbD_oneShift : ∀ o, o < 8 → ∀ j, j < 8 → (1#8 <<< o).getLsbD j = decide (j = o) := by decide

/-- The bits of BIT_SET's byte (41_bit_packing.md R131). -/
theorem getLsbD_setBit (old : Byte) (bidx : BitIndex) (v : Bool) {j : Nat} (hj : j < 8) :
    (setBit old bidx v).getLsbD j = if j = bidx.toNat % 8 then v else old.getLsbD j := by
  have hm : (bitMask bidx).getLsbD j = decide (j = bidx.toNat % 8) :=
    getLsbD_oneShift (bitOffset bidx) (Nat.mod_lt _ (by decide)) j hj
  have e : (setBit old bidx v).getLsbD j =
      ((old.getLsbD j && !decide (j = bidx.toNat % 8)) || (v && decide (j = bidx.toNat % 8))) := by
    cases v <;> simp only [setBit, BitVec.getLsbD_or, BitVec.getLsbD_and, BitVec.getLsbD_not, hm, hj, decide_true,
      Bool.true_and, Bool.false_and, if_true, Bool.false_eq_true, if_false, BitVec.getLsbD_zero]
  rw [e]
  by_cases h : j = bidx.toNat % 8
  · simp only [h, decide_true, Bool.not_true, Bool.and_false, Bool.and_true, Bool.false_or, if_true]
  · simp only [h, decide_false, Bool.not_false, Bool.and_false, Bool.and_true, Bool.or_false, if_false]

end Sys2Proof.Machine
end

