-- ==== Sys2Proof/Laws/Frames.lean ====
section
/-! SUPPORT. The laws of building a frame from its start: a state whose frame is a given sequence, and what each pack
primitive and each request builder makes of it. -/

namespace Sys2Proof.Machine

/-- The state `s` with the frame `body` in TX, the other bytes of TX as they were. -/
def State.framed (s : State) (body : List Byte) : State :=
  { s with tx := s.tx.writeAll 0 body, txlen := BitVec.ofNat 9 body.length }

theorem State.framed_txlen {s : State} {body : List Byte} (h : body.length ≤ 256) :
    (s.framed body).txlen.toNat = body.length := by
  simp only [State.framed, BitVec.toNat_ofNat]
  omega

@[simp] theorem State.framed_arg (s : State) (body : List Byte) : (s.framed body).arg = s.arg := rfl
@[simp] theorem State.framed_status (s : State) (body : List Byte) : (s.framed body).status = s.status := rfl
@[simp] theorem State.framed_data (s : State) (body : List Byte) : (s.framed body).data = s.data := rfl
@[simp] theorem State.framed_draws (s : State) (body : List Byte) : (s.framed body).draws = s.draws := rfl

theorem State.framed_holds (s : State) (body : List Byte) : (s.framed body).tx.holds 0 body :=
  Memory.writeAll_holds s.tx 0 body

theorem State.framed_sameOutside (s : State) (body : List Byte) : s.tx.sameOutside (s.framed body).tx 0 body.length :=
  Memory.writeAll_sameOutside s.tx 0 body

theorem beginPackSteps_eq (sa fc : Byte) (s : State) : beginPackSteps sa fc s = s.framed [sa, fc] := rfl

/-- Appending to a frame (40_frame_codec.md R110). -/
theorem appendBytes_framed {s : State} {body bs : List Byte} (h : body.length + bs.length ≤ 256) :
    appendBytes bs (s.framed body) = .ok (s.framed (body ++ bs)) := by
  have hl : (s.framed body).txlen.toNat = body.length := State.framed_txlen (by omega)
  rw [appendBytes_ok (by omega), hl]
  simp only [State.framed, Memory.writeAll_append, Nat.zero_add, List.length_append, BitVec.ofNat_add]

theorem packWordSteps_framed {s : State} {body : List Byte} {w : Half} (h : body.length + 2 ≤ 256) :
    packWordSteps w (s.framed body) = .ok (s.framed (body ++ wordBytes w)) :=
  appendBytes_framed (bs := wordBytes w) h

theorem append_framed {s : State} {body : List Byte} {b : Byte} (h : body.length + 1 ≤ 256) :
    append b (s.framed body) = .ok (s.framed (body ++ [b])) :=
  appendBytes_framed (bs := [b]) h

/-- The bytes PACK_BYTES takes from DATA. -/
def dataRead (s : State) (n : Nat) : List Byte := (s.data.readSeq 0 n s.draws).1

@[simp] theorem dataRead_length (s : State) (n : Nat) : (dataRead s n).length = n := Memory.readSeq_length _ _ _ _

theorem packBytesSteps_framed {s : State} {body : List Byte} {n : Nat} (h : body.length + n ≤ 256) :
    packBytesSteps n (s.framed body) =
      .ok ({ s with draws := (s.data.readSeq 0 n s.draws).2 }.framed (body ++ dataRead s n)) := by
  have hn : ¬ (s.framed body).txlen.toNat + n > Config.frameCap := by
    rw [State.framed_txlen (by omega)]
    simpa [Config.frameCap] using h
  simp only [packBytesSteps, hn, if_false]
  exact appendBytes_framed (s := { s with draws := (s.data.readSeq 0 n s.draws).2 }) (bs := dataRead s n)
    (by simpa using h)

/-- Ending a frame (40_frame_codec.md R115): the frame is written, so its CRC is that of its bytes. -/
theorem endPackSteps_framed {s : State} {body : List Byte} (h : body.length + 2 ≤ 256) :
    endPackSteps (s.framed body) = .ok { s.framed (withCrc body) with crc := crc16 body } := by
  have hl : (s.framed body).txlen.toNat = body.length := State.framed_txlen (by omega)
  have hr : (s.framed body).tx.readSeq 0 (s.framed body).txlen.toNat (s.framed body).draws = (body, s.draws) := by
    rw [hl, Memory.readSeq_holds (State.framed_holds s body)]
    rfl
  simp only [endPackSteps, hr]
  rw [show ({ s.framed body with draws := s.draws } : State) = s.framed body from rfl,
    appendBytes_framed (by simpa using h)]
  rfl

theorem endPackSteps_framed_error {s : State} {body : List Byte} (hb : body.length ≤ 256) (h : 256 < body.length + 2) :
    endPackSteps (s.framed body) = .error .txCap :=
  endPackSteps_error (by rw [State.framed_txlen hb]; exact h)

/-- A frame with its CRC appended is CRC-valid (42_validator.md R140). -/
theorem crcValid_withCrc {body : List Byte} (h : 2 ≤ body.length) : CrcValid (withCrc body) := by
  have hl : (withCrc body).length = body.length + 2 := by simp [withCrc]
  have ht : (withCrc body).take body.length = body := by simp [withCrc]
  refine ⟨by omega, ?_, ?_⟩
  · rw [hl, show body.length + 2 - 2 = body.length by omega, ht]
    simp [withCrc]
  · rw [hl, show body.length + 2 - 2 = body.length by omega, ht]
    simp [withCrc]

/-! ## The request builders -/

/-- ARG as it stands in a request frame: both halves, each high byte first. -/
theorem wordBytes_arg (arg : Word) : wordBytes (argHi arg) ++ wordBytes (argLo arg) = argBytes arg := by
  have e : ∀ a b c : Nat, a + b ≤ 16 → (arg.extractLsb' c 16).extractLsb' a b = arg.extractLsb' (c + a) b := by
    intro a b c h
    apply BitVec.eq_of_getLsbD_eq
    intro i hi
    simp [show a + i < 16 by omega, Nat.add_assoc]
  simp [wordBytes, argHi, argLo, argBytes, e]

/-- The body of a request of an address and a word. -/
def twoWordBody (sa fc : Byte) (hi lo : Half) : List Byte := [sa, fc] ++ wordBytes hi ++ wordBytes lo

/-- The requests of R161 to R166 never fail. -/
theorem twoWordRequest_ok (sa fc : Byte) (w : Half) (s : State) :
    twoWordRequest sa fc w s =
      .ok { s.framed (withCrc (twoWordBody sa fc (argHi s.arg) w)) with
        crc := crc16 (twoWordBody sa fc (argHi s.arg) w) } := by
  rw [twoWordRequest, beginPackSteps_eq, packWordSteps_framed (by simp), except_bind_ok,
    packWordSteps_framed (by simp [wordBytes]), except_bind_ok, endPackSteps_framed (by simp [wordBytes])]
  rfl

/-- The body of a request with `bytes` of DATA. -/
def dataBody (sa fc : Byte) (hi lo : Half) (bytes : List Byte) : List Byte :=
  [sa, fc] ++ wordBytes hi ++ wordBytes lo ++ [byteCount bytes.length] ++ bytes

/-- The requests of R167 and R168 where the frame fits. -/
theorem dataRequest_ok {sa fc : Byte} {n : Nat} {s : State} (h : 9 + n ≤ 256) :
    dataRequest sa fc n s =
      .ok { { s with draws := (s.data.readSeq 0 n s.draws).2 }.framed
          (withCrc (dataBody sa fc (argHi s.arg) (argLo s.arg) (dataRead s n))) with
        crc := crc16 (dataBody sa fc (argHi s.arg) (argLo s.arg) (dataRead s n)) } := by
  rw [dataRequest, beginPackSteps_eq, packWordSteps_framed (by simp), except_bind_ok,
    packWordSteps_framed (by simp [wordBytes]), except_bind_ok, append_framed (by simp [wordBytes]), except_bind_ok,
    packBytesSteps_framed (by simp [wordBytes]; omega), except_bind_ok,
    endPackSteps_framed (by simp [wordBytes]; omega)]
  simp only [dataBody, dataRead_length]

/-- The requests of R167 and R168 where the frame does not fit: PACK_BYTES or END_PACK fails. -/
theorem dataRequest_error {sa fc : Byte} {n : Nat} {s : State} (h : 256 < 9 + n) :
    dataRequest sa fc n s = .error .txCap := by
  rw [dataRequest, beginPackSteps_eq, packWordSteps_framed (by simp), except_bind_ok,
    packWordSteps_framed (by simp [wordBytes]), except_bind_ok, append_framed (by simp [wordBytes]), except_bind_ok]
  by_cases hn : 7 + n ≤ 256
  · rw [packBytesSteps_framed (by simp [wordBytes]; omega), except_bind_ok,
      endPackSteps_framed_error (by simp [wordBytes]; omega) (by simp [wordBytes]; omega)]
  · rw [packBytesSteps_error (by rw [State.framed_txlen (by simp [wordBytes])]; simp [wordBytes]; omega),
      except_bind_error]

end Sys2Proof.Machine
end

