-- ==== Sys2Proof/Laws/PerInstr.lean ====
section
/-! SUPPORT. The per-instruction family EncodesOpcode: the word of a command carries its OP in bits [7:0], so that the
decoder selects its row (30_encoding.md R70, R73). -/

namespace Sys2Proof.Laws.EncodesOpcode

/-- Bits [7:0] of the encoding name the command's row of the opcode map. -/
def Statement (i : Instr) : Prop := opcodeOf (opField (encode i)) = some (opcode i)

theorem of_toNat {w : Word} {op : Opcode} {n : Nat} (h : w.toNat = n * 2 ^ 8 + op.toByte.toNat) :
    opcodeOf (opField w) = some op := by
  have hw : opField w = op.toByte := by
    apply BitVec.eq_of_toNat_eq
    have := op.toByte.isLt
    rw [opField, extract_toNat]
    omega
  rw [hw, opcodeOf_toByte]

theorem nop : Statement .nop := rfl
theorem endPack : Statement .endPack := rfl
theorem crcInit : Statement .crcInit := rfl
theorem valCrc : Statement .valCrc := rfl
theorem packByte (b : Byte) : Statement (.packByte b) := of_toNat (encB_toNat _ b)
theorem packWord (w : Half) : Statement (.packWord w) := of_toNat (encW_toNat _ w)
theorem packBytes (n : Len) : Statement (.packBytes n) := of_toNat (encL_toNat _ n)
theorem crcFeed (b : Byte) : Statement (.crcFeed b) := of_toNat (encB_toNat _ b)

theorem beginPack (sa fc : Byte) : Statement (.beginPack sa fc) :=
  of_toNat (n := fc.toNat * 256 + sa.toNat) (by rw [encode, encAF_toNat, opcode]; omega)

theorem valResp (sa fc : Byte) : Statement (.valResp sa fc) :=
  of_toNat (n := fc.toNat * 256 + sa.toNat) (by rw [encode, encAF_toNat, opcode]; omega)

theorem bitSet (bidx : BitIndex) (cnt : Len) (v : Bool) : Statement (.bitSet bidx cnt v) :=
  of_toNat (n := v.toNat * 1048576 + cnt.toNat * 2048 + bidx.toNat) (by rw [encode, encBT_toNat, opcode]; omega)

theorem bitGet (bidx : BitIndex) (cnt : Len) : Statement (.bitGet bidx cnt) :=
  of_toNat (n := false.toNat * 1048576 + cnt.toNat * 2048 + bidx.toNat) (by rw [encode, encBT_toNat, opcode]; omega)

theorem reqRdCoils (sa : Byte) : Statement (.reqRdCoils sa) := of_toNat (encB_toNat _ sa)
theorem reqRdDisc (sa : Byte) : Statement (.reqRdDisc sa) := of_toNat (encB_toNat _ sa)
theorem reqRdHregs (sa : Byte) : Statement (.reqRdHregs sa) := of_toNat (encB_toNat _ sa)
theorem reqRdIregs (sa : Byte) : Statement (.reqRdIregs sa) := of_toNat (encB_toNat _ sa)
theorem reqWrReg (sa : Byte) : Statement (.reqWrReg sa) := of_toNat (encB_toNat _ sa)
theorem reqWrCoils (sa : Byte) : Statement (.reqWrCoils sa) := of_toNat (encB_toNat _ sa)
theorem reqWrRegs (sa : Byte) : Statement (.reqWrRegs sa) := of_toNat (encB_toNat _ sa)

theorem reqWrCoil (sa : Byte) (v : Bool) : Statement (.reqWrCoil sa v) :=
  of_toNat (n := v.toNat * 256 + sa.toNat) (by rw [encode, encRC_toNat, opcode]; omega)

end Sys2Proof.Laws.EncodesOpcode
end

