-- ==== Sys2Proof/Laws/Step.lean ====
section
/-! SUPPORT. The laws of a step: which agent moves, what an access reaches, and everything a host operation can do. -/

namespace Sys2Proof.Machine

/-! ## Offsets and accesses -/

/-- A register's offset reaches that register (10_state.md R23). -/
@[simp] theorem regionOf_regOffset (r : Reg) : regionOf (regOffset r) = .reg r := by cases r <;> rfl

/-- Only a register's own offset reaches it. -/
theorem registerAt_reg {n : Nat} {r : Reg} (h : registerAt n = .reg r) : n = (regOffset r).toNat := by
  unfold registerAt at h
  split at h <;> cases h <;> rfl

theorem regionOf_eq_reg {off : Offset} {r : Reg} : regionOf off = .reg r ↔ off = regOffset r := by
  constructor
  · intro h
    simp only [regionOf] at h
    split at h
    · exact BitVec.eq_of_toNat_eq (registerAt_reg h)
    · split at h
      · cases h
      · split at h <;> cases h
  · rintro rfl
    exact regionOf_regOffset r

/-- A window's offsets and indices (10_state.md R23). -/
theorem regionOf_window {off : Offset} {b : Buffer} {i : Nat} (h : regionOf off = .window b i) :
    0x100 ≤ off.toNat ∧ windowBase b + i = off.toNat ∧ i < 256 := by
  have hlt := off.isLt
  have hlow : ∀ n b i, registerAt n ≠ .window b i := by
    intro n b i hr
    unfold registerAt at hr
    split at hr <;> cases hr
  simp only [regionOf] at h
  split at h
  · exact absurd h (hlow _ _ _)
  · split at h
    · cases h
      simp only [windowBase]
      omega
    · split at h
      · cases h
        simp only [windowBase]
        omega
      · cases h
        simp only [windowBase]
        omega

theorem regionOf_low {off : Offset} (h : off.toNat < 0x100) : regionOf off = registerAt off.toNat := by
  simp only [regionOf, h, if_true]

theorem regionOf_tx {off : Offset} (h : 0x100 ≤ off.toNat) (h' : off.toNat < 0x200) :
    regionOf off = .window .tx (off.toNat - 0x100) := by
  simp only [regionOf, Nat.not_lt.2 h, h', if_false, if_true]

theorem regionOf_rx {off : Offset} (h : 0x200 ≤ off.toNat) (h' : off.toNat < 0x300) :
    regionOf off = .window .rx (off.toNat - 0x200) := by
  simp only [regionOf, show ¬ off.toNat < 0x100 by omega, show ¬ off.toNat < 0x200 by omega, h', if_false, if_true]

theorem regionOf_data {off : Offset} (h : 0x300 ≤ off.toNat) : regionOf off = .window .data (off.toNat - 0x300) := by
  simp only [regionOf, show ¬ off.toNat < 0x100 by omega, show ¬ off.toNat < 0x200 by omega,
    show ¬ off.toNat < 0x300 by omega, if_false]

/-- The check of an access is 20_memory.md R52. -/
theorem legalAccess_iff {off : Offset} {width : Width} : legalAccess off width = true ↔ LegalAccess off width := by
  simp only [legalAccess, LegalAccess]
  by_cases h : off.toNat < 0x100
  · simp only [h, if_true, Bool.and_eq_true, beq_iff_eq, true_implies, Nat.not_le.2 h, false_implies, and_true]
  · simp only [h, if_false, beq_iff_eq, false_implies, Nat.not_lt.1 h, true_implies, true_and]

/-- A 32-bit access of a register is legal. -/
theorem legalAccess_register (r : Reg) : LegalAccess (regOffset r) .word := legalAccess_iff.1 (by cases r <;> rfl)

/-- A legal access of a window stays inside its buffer. -/
theorem legalAccess_window {off : Offset} {width : Width} {b : Buffer} {i : Nat} (h : LegalAccess off width)
    (hr : regionOf off = .window b i) : i + width.bytes ≤ 256 := by
  obtain ⟨h1, h2, h3⟩ := regionOf_window hr
  have h4 := h.2 h1
  cases b <;> cases width <;> simp only [windowBase, Width.bytes] at h2 h4 ⊢ <;> omega

theorem guardAccess_ok {off : Offset} {width : Width} {t : State} (h : LegalAccess off width) :
    guardAccess off width true t = .next t := by
  simp [guardAccess, legalAccess_iff.2 h]

theorem guardAccess_violation {off : Offset} {width : Width} {t : State} (h : LegalAccess off width) :
    guardAccess off width false t = .fault .hostProtocolViolation := by
  simp [guardAccess, legalAccess_iff.2 h]

theorem guardAccess_illegal {off : Offset} {width : Width} {b : Bool} {t : State} (h : ¬ LegalAccess off width) :
    guardAccess off width b t = .fault (.hostAccessError off width) := by
  simp [guardAccess, mt legalAccess_iff.1 h]

/-- A guarded access that goes on goes on to `t`, is legal and is allowed. -/
theorem guardAccess_next {off : Offset} {width : Width} {b : Bool} {t u : State} (h : guardAccess off width b t = .next u) :
    u = t ∧ LegalAccess off width ∧ b = true := by
  simp only [guardAccess] at h
  split at h
  · cases h
  · split at h
    · cases h
    · cases h
      simp_all [← legalAccess_iff]

/-! ## What the host may do -/

theorem State.engineActive_iff {s : State} : s.engineActive = true ↔ s.status.busy = true ∧ s.status.fatal = false := by
  simp [State.engineActive]

@[simp] theorem State.takeInput_engineActive (s : State) : s.takeInput.engineActive = s.engineActive := rfl

@[simp] theorem State.takeInput_mayRead (s : State) (off : Offset) : s.takeInput.mayRead off = s.mayRead off := rfl

@[simp] theorem State.takeInput_mayWrite (s : State) (off : Offset) : s.takeInput.mayWrite off = s.mayWrite off := rfl

theorem State.mayRead_iff {s : State} {off : Offset} :
    s.mayRead off = true ↔ s.engineActive = false ∨ off = regOffset .status := by
  simp [State.mayRead, regionOf_eq_reg]

theorem State.mayWrite_iff {s : State} {off : Offset} :
    s.mayWrite off = true ↔ s.engineActive = false ∨ off = regOffset .ctrl := by
  simp [State.mayWrite, regionOf_eq_reg]

theorem State.halted_engineActive {s : State} (h : s.status.fatal = true) : s.engineActive = false := by
  simp [State.engineActive, h]

theorem State.mayRead_of_inactive {s : State} (off : Offset) (h : s.engineActive = false) : s.mayRead off = true :=
  State.mayRead_iff.2 (.inl h)

theorem State.mayWrite_of_inactive {s : State} (off : Offset) (h : s.engineActive = false) : s.mayWrite off = true :=
  State.mayWrite_iff.2 (.inl h)

theorem State.mayRead_active {s : State} {off : Offset} (h : s.engineActive = true) (ho : off ≠ regOffset .status) :
    s.mayRead off = false := by
  simp [State.mayRead, h, regionOf_eq_reg, ho]

theorem State.mayWrite_active {s : State} {off : Offset} (h : s.engineActive = true) (ho : off ≠ regOffset .ctrl) :
    s.mayWrite off = false := by
  simp [State.mayWrite, h, regionOf_eq_reg, ho]

theorem State.idle_engineActive {s : State} (h : s.status.busy = false) : s.engineActive = false := by
  simp [State.engineActive, h]

theorem State.engineTurn_active {s : State} (h : s.engineTurn = true) : s.engineActive = true := by
  simp only [State.engineTurn, Bool.and_eq_true] at h
  exact h.1

theorem State.engineTurn_of_inactive {s : State} (h : s.engineActive = false) : s.engineTurn = false := by
  simp [State.engineTurn, h]

/-! ## Who moves -/

/-- The engine's step. -/
theorem step_engine {s : State} (h : s.engineTurn = true) : step s = engineStep s := by
  simp [step, h]

/-- The engine's step on a word that decodes. -/
theorem engineStep_command {s : State} {w : Word} {i : Instr} (hp : s.pend = some w) (hd : decode w = .ok i) :
    engineStep s = afterNext State.retire (exec i s) := by
  simp [engineStep, hp, executeWord, hd]

/-- The engine's step on an illegal word. -/
theorem engineStep_illegal {s : State} {w : Word} {e : DecodeError} (hp : s.pend = some w) (hd : decode w = .error e) :
    engineStep s = .next (s.setResult .illegalCmd 0#8 false).retire := by
  simp [engineStep, hp, executeWord, hd, rejectWord]

/-- A step takes the next input where it is not the engine's turn. -/
theorem step_input {s : State} {i : Input} {rest : List Input} (h : s.inputs = i :: rest) (ht : s.engineTurn = false) :
    step s = inputStep i s.takeInput := by
  simp [step, ht, h]

/-- With nothing to do the block waits. -/
theorem step_idle {s : State} (h : s.inputs = []) (ht : s.engineTurn = false) : step s = .next s := by
  simp [step, ht, h]

/-- A step takes the host's next operation. -/
theorem step_host {s : State} {op : HostOp} {rest : List Input} (h : s.hostNext op rest) : step s = hostStep op s.takeInput :=
  step_input h.1 h.2

/-- Taking the first input. -/
theorem State.takeInput_eq {s : State} {i : Input} {rest : List Input} (h : s.inputs = i :: rest) :
    s.takeInput = { s with inputs := rest, latency := s.latency - 1 } := by
  simp [State.takeInput, h]

/-! ## Reads and writes -/

/-- A register read draws nothing. -/
theorem State.busRead_reg {s : State} {off : Offset} {width : Width} {r : Reg} (h : regionOf off = .reg r) :
    s.busRead off width = (s.regValue r, s.draws) := by
  simp [State.busRead, h]

/-- A read of a reserved offset returns 0 (10_state.md R23). -/
theorem State.busRead_reserved {s : State} {off : Offset} {width : Width} (h : regionOf off = .reserved) :
    s.busRead off width = (0#32, s.draws) := by
  simp [State.busRead, h]

/-- A read of a window. -/
theorem State.busRead_window {s : State} {off : Offset} {width : Width} {b : Buffer} {i : Nat}
    (h : regionOf off = .window b i) :
    s.busRead off width =
      (leValue ((s.buffer b).readSeq i width.bytes s.draws).1, ((s.buffer b).readSeq i width.bytes s.draws).2) := by
  simp [State.busRead, h]

/-- A read leaves every field of the block. -/
theorem State.hostRead_frame (s : State) (off : Offset) (width : Width) :
    s.hostRead off width = { s with rdata := (s.hostRead off width).rdata, draws := (s.hostRead off width).draws } := rfl

/-- A write of a halted block that is not a CTRL write has no effect (60_exceptions.md R206). -/
theorem State.hostWrite_halted {s : State} {off : Offset} {width : Width} {v : Word} (h : s.status.fatal = true)
    (hc : off ≠ regOffset .ctrl) : s.hostWrite off width v = s := by
  simp [State.hostWrite, h, regionOf_eq_reg, hc]

/-- A write of a block that is not halted. -/
theorem State.hostWrite_running {s : State} {off : Offset} {width : Width} {v : Word} (h : s.status.fatal = false) :
    s.hostWrite off width v = s.writeEffect off width v := by
  simp [State.hostWrite, h]

/-- A CTRL write has its effect on every state (10_state.md R32). -/
theorem State.hostWrite_ctrl (s : State) (width : Width) (v : Word) :
    s.hostWrite (regOffset .ctrl) width v = s.writeCtrl v := by
  simp [State.hostWrite, State.writeEffect]

theorem State.writeRxlen_ok {s : State} {v : Word} (h : v.toNat ≤ 256) :
    s.writeRxlen v = { s with rxlen := v.setWidth 9 } := by
  simp [State.writeRxlen, Config.frameCap, Nat.not_lt.2 h]

theorem State.writeRxlen_fatal {s : State} {v : Word} (h : 256 < v.toNat) : s.writeRxlen v = s.raiseFatal .rxCap v := by
  simp [State.writeRxlen, Config.frameCap, h]

/-- A step that is a write of the host. -/
theorem step_write {s : State} {off : Offset} {width : Width} {v : Word} {rest : List Input}
    (h : s.hostNext (.write off width v) rest) :
    step s = guardAccess off width (s.mayWrite off) (s.takeInput.hostWrite off width v) := by
  rw [step_host h]
  rfl

/-- A step that is a read of the host. -/
theorem step_read {s : State} {off : Offset} {width : Width} {rest : List Input}
    (h : s.hostNext (.read off width) rest) :
    step s = guardAccess off width (s.mayRead off) (s.takeInput.hostRead off width) := by
  rw [step_host h]
  rfl

@[simp] theorem State.pushOps_nil (s : State) : s.pushOps [] = s := rfl

/-- Everything a host operation can do where it goes on: a write, or a read after which more operations may come. -/
theorem hostStep_next {op : HostOp} {s t : State} (h : hostStep op s = .next t) :
    (∃ off width v, op = .write off width v ∧ LegalAccess off width ∧ s.mayWrite off = true ∧
      t = s.hostWrite off width v) ∨
    ∃ off width ops, (∀ o w v, op ≠ .write o w v) ∧ s.mayRead off = true ∧ t = (s.hostRead off width).pushOps ops := by
  cases op with
  | write off width v =>
    obtain ⟨rfl, hl, hm⟩ := guardAccess_next h
    exact .inl ⟨off, width, v, rfl, hl, hm, rfl⟩
  | read off width =>
    obtain ⟨rfl, -, hm⟩ := guardAccess_next h
    exact .inr ⟨off, width, [], by simp, hm, rfl⟩
  | poll =>
    simp only [hostStep] at h
    obtain ⟨rfl, -, hm⟩ := guardAccess_next h
    exact .inr ⟨_, _, _, by simp, hm, rfl⟩
  | rdtx =>
    simp only [hostStep] at h
    obtain ⟨rfl, -, hm⟩ := guardAccess_next h
    exact .inr ⟨_, _, _, by simp, hm, rfl⟩

/-- Everything an input can do where it goes on. -/
theorem inputStep_next {i : Input} {s t : State} (h : inputStep i s = .next t) :
    (i = .hardwareReset ∧ t = s.resetBlock) ∨ ∃ op, i = .access .host op ∧ hostStep op s = .next t := by
  cases i with
  | hardwareReset => cases h; exact .inl ⟨rfl, rfl⟩
  | access a op =>
    cases a with
    | host => exact .inr ⟨op, rfl, h⟩
    | other => cases h

/-- Everything a step can do where it goes on: the engine's turn, waiting, or an input. -/
theorem step_next {s t : State} (h : step s = .next t) :
    (s.engineTurn = true ∧ engineStep s = .next t) ∨
    (s.engineTurn = false ∧ s.inputs = [] ∧ t = s) ∨
    ∃ i rest, s.engineTurn = false ∧ s.inputs = i :: rest ∧ inputStep i s.takeInput = .next t := by
  cases ht : s.engineTurn with
  | true => exact .inl ⟨rfl, by rw [← h, step_engine ht]⟩
  | false =>
    cases hi : s.inputs with
    | nil =>
      rw [step_idle hi ht] at h
      cases h
      exact .inr (.inl ⟨rfl, rfl, rfl⟩)
    | cons i rest => exact .inr (.inr ⟨i, rest, rfl, rfl, by rw [← h, step_input hi ht]⟩)

/-! ## Reset -/

/-- A reset leaves 10_state.md R37. -/
theorem State.resetBlock_afterReset (s : State) : s.resetBlock.afterReset :=
  ⟨rfl, (by decide : statusWord State.reset.status = 0#32), (by decide : resultWord State.reset.result = 0#32), rfl, rfl,
    rfl, (by decide : pldWord State.reset.pld = 0#32), rfl, rfl, fun _ => ⟨rfl, rfl, rfl⟩⟩

/-- A CTRL write with SRST set. -/
theorem State.writeCtrl_reset {s : State} {v : Word} (h : v.getLsbD 0 = true) : s.writeCtrl v = s.resetBlock := by
  rw [State.writeCtrl, if_pos h]

/-- A CTRL write with SRST clear. -/
theorem State.writeCtrl_ignored {s : State} {v : Word} (h : v.getLsbD 0 = false) : s.writeCtrl v = s := by
  rw [State.writeCtrl, if_neg (by rw [h]; exact Bool.false_ne_true)]

/-! ## Byte lanes (20_memory.md R54) -/

@[simp] theorem leBytes_length (n : Nat) (v : Word) : (leBytes n v).length = n := by simp [leBytes]

theorem leBytes_get {n k : Nat} (v : Word) (h : k < n) : (leBytes n v)[k]? = some (v.extractLsb' (8 * k) 8) := by
  simp [leBytes, h]

/-- A byte write puts its byte. -/
theorem leBytes_one (x : Byte) : leBytes 1 (x.setWidth 32) = [x] := by
  simp only [leBytes, List.range_one, List.map_cons, List.map_nil, List.cons.injEq, and_true]
  apply BitVec.eq_of_toNat_eq
  have := x.isLt
  rw [BitVec.extractLsb'_toNat, BitVec.toNat_setWidth, Nat.shiftRight_eq_div_pow]
  omega

/-- A byte read returns its byte. -/
theorem leValue_one (x : Byte) : leValue [x] = x.setWidth 32 := by simp [leValue]

theorem leValue_toNat {b : Byte} {bs : List Byte} (h : (leValue bs).toNat < 2 ^ 24) :
    (leValue (b :: bs)).toNat = b.toNat + 256 * (leValue bs).toNat := by
  have hb := b.isLt
  simp only [leValue, BitVec.toNat_add, BitVec.toNat_setWidth, BitVec.toNat_shiftLeft, Nat.shiftLeft_eq]
  omega

theorem leValue_lt {bs : List Byte} (h : bs.length ≤ 4) : (leValue bs).toNat < 2 ^ (8 * bs.length) := by
  induction bs with
  | nil => decide
  | cons b bs ih =>
    have hb := b.isLt
    have hl : bs.length ≤ 3 := Nat.le_of_succ_le_succ h
    have h1 := ih (by omega)
    have h2 : 2 ^ (8 * bs.length) ≤ 2 ^ 24 := Nat.pow_le_pow_right (by decide) (by omega)
    rw [leValue_toNat (by omega), List.length_cons, Nat.mul_succ, Nat.pow_add]
    omega

/-- The lanes of a value read from the bus are the bytes it was made of. -/
theorem leValue_lane {bs : List Byte} {k : Nat} {b : Byte} (h : bs.length ≤ 4) (hk : bs[k]? = some b) :
    (leValue bs).toNat / 2 ^ (8 * k) % 2 ^ 8 = b.toNat := by
  induction bs generalizing k with
  | nil => simp at hk
  | cons c bs ih =>
    have hc := c.isLt
    have hl : bs.length ≤ 3 := Nat.le_of_succ_le_succ h
    have h1 := leValue_lt (bs := bs) (by omega)
    have h2 : 2 ^ (8 * bs.length) ≤ 2 ^ 24 := Nat.pow_le_pow_right (by decide) (by omega)
    rw [leValue_toNat (by omega)]
    cases k with
    | zero =>
      simp only [List.getElem?_cons_zero, Option.some.injEq] at hk
      subst hk
      simp only [Nat.mul_zero, Nat.pow_zero, Nat.div_one]
      omega
    | succ k =>
      rw [List.getElem?_cons_succ] at hk
      rw [← ih (by omega) hk, Nat.mul_succ, Nat.add_comm (8 * k) 8, Nat.pow_add, ← Nat.div_div_eq_div_mul]
      congr 2
      omega

end Sys2Proof.Machine
end

