-- ==== Sys2Proof/Laws/Run.lean ====
section
/-! SUPPORT. The laws of runs of several steps, of `poll`, and of runs of commands. -/

namespace Sys2Proof.Machine

@[simp] theorem run_zero (s : State) : runSteps 0 s = .next s := rfl

/-- One step, then the rest of the run. -/
theorem run_succ {k : Nat} {s u : State} (h : step s = .next u) :
    runSteps (k + 1) s = runSteps k u := by
  simp only [runSteps, h]

/-- The host's run of the machine is the same run. -/
theorem runSteps_core (k : Nat) (s : State) : runSteps k s = Host.Core.run core k s := by
  induction k generalizing s with
  | zero => rfl
  | succ k ih =>
    refine Eq.trans ?_ (Host.Core.run.eq_2 core s k).symm
    cases h : step s with
    | next t =>
      rw [show core.step s = .next t from h]
      simpa only [runSteps, h] using ih t
    | fault r =>
      rw [show core.step s = .fault r from h]
      simp only [runSteps, h]
      rfl
    | refused r =>
      rw [show core.step s = .refused r from h]
      simp only [runSteps, h]
      rfl

/-- A run in two parts. -/
theorem run_add {k j : Nat} {s u : State} (h : runSteps k s = .next u) :
    runSteps (k + j) s = runSteps j u := by
  induction k generalizing s with
  | zero =>
    rw [run_zero] at h
    cases h
    rw [Nat.zero_add]
  | succ k ih =>
    cases hs : step s with
    | next v =>
      rw [run_succ hs] at h
      rw [Nat.succ_add, run_succ hs, ih h]
    | fault r =>
      simp only [runSteps, hs] at h
      cases h
    | refused r =>
      simp only [runSteps, hs] at h
      cases h

/-- `poll` on a block that is not busy is one read of STATUS (44_control.md R183). -/
theorem step_poll_done {s : State} {rest : List Input} (h : s.inputs = .access .host .poll :: rest)
    (hb : s.status.busy = false) :
    step s = .next { s with inputs := rest, latency := s.latency - 1, rdata := some (statusWord s.status) } := by
  have ha := State.idle_engineActive hb
  rw [step_input h (State.engineTurn_of_inactive ha), State.takeInput_eq h]
  simp only [inputStep, hostStep, hb, Bool.false_eq_true, if_false, State.pushOps_nil]
  rw [State.mayRead_of_inactive _ (by exact ha), guardAccess_ok (legalAccess_register .status), State.hostRead,
    State.busRead_reg (regionOf_regOffset .status)]
  rfl

/-- `poll` while a command is in the engine reads STATUS and stays the next operation. -/
theorem step_poll_busy {s : State} {rest : List Input} (h : s.inputs = .access .host .poll :: rest)
    (hb : s.status.busy = true) (ht : s.engineTurn = false) :
    step s = .next { s with latency := s.latency - 1, rdata := some (statusWord s.status) } := by
  rw [step_input h ht, State.takeInput_eq h]
  simp only [inputStep, hostStep, hb, if_true]
  rw [State.mayRead_iff.2 (.inr rfl), guardAccess_ok (legalAccess_register .status), State.hostRead,
    State.busRead_reg (regionOf_regOffset .status)]
  simp only [State.pushOps, State.regValue, List.map_cons, List.map_nil, List.singleton_append]
  rw [← h]

/-- `poll` repeats until the latency of the command in the engine has run out. -/
theorem run_poll_busy {s : State} {rest : List Input} (h : s.inputs = .access .host .poll :: rest)
    (ha : s.engineActive = true) :
    ∃ rd, runSteps s.latency s = .next { s with latency := 0, rdata := rd } := by
  generalize hn : s.latency = n
  induction n generalizing s with
  | zero =>
    refine ⟨s.rdata, ?_⟩
    rw [run_zero, ← hn]
  | succ n ih =>
    have hb := (State.engineActive_iff.1 ha).1
    have ht : s.engineTurn = false := by simp [State.engineTurn, hn, h]
    obtain ⟨rd, hr⟩ := ih (s := { s with latency := s.latency - 1, rdata := some (statusWord s.status) }) h ha
      (by simp [hn])
    exact ⟨rd, by rw [run_succ (step_poll_busy h hb ht), hr]⟩

/-! ## Runs of commands -/

/-- The first command of a run without a fault. -/
theorem runCommands_cons {i : Instr} {is : List Instr} {s t : State} (h : runCommands (i :: is) s = some t) :
    ∃ u, exec i s = .next u ∧ u.status.fatal = false ∧ runCommands is u = some t := by
  simp only [runCommands] at h
  split at h
  · rename_i u hu
    split at h
    · cases h
    · exact ⟨u, hu, by simp_all, h⟩
  · cases h
  · cases h

/-- A run of commands in two parts. -/
theorem runCommands_append {is js : List Instr} {s t : State} (h : runCommands (is ++ js) s = some t) :
    ∃ u, runCommands is s = some u ∧ runCommands js u = some t := by
  induction is generalizing s with
  | nil => exact ⟨s, rfl, h⟩
  | cons i is ih =>
    obtain ⟨v, h1, h2, h3⟩ := runCommands_cons h
    obtain ⟨u, h4, h5⟩ := ih h3
    exact ⟨u, by simp [runCommands, h1, h2, h4], h5⟩

/-- A pack command that completes. -/
theorem runCommands_ok {i : Instr} {is : List Instr} {s t : State} {w : Word} {r : Except FatalCause State}
    (h : exec i s = finishPack w s r) (hr : r = .ok t) (hf : t.status.fatal = false) :
    runCommands (i :: is) s = runCommands is (t.setResult .ok 0#8 false) := by
  subst hr
  simp [runCommands, h, hf]

/-- A pack command that faults. -/
theorem runCommands_error {i : Instr} {is : List Instr} {s : State} {w : Word} {r : Except FatalCause State}
    {c : FatalCause} (h : exec i s = finishPack w s r) (hr : r = .error c) : runCommands (i :: is) s = none := by
  subst hr
  simp [runCommands, h]

end Sys2Proof.Machine
end

