-- ==== Sys2Proof/Laws/Validator.lean ====
section
/-! SUPPORT. The laws of the frame validator: what its CRC check reads, and its outcome on a frame that is written. -/

namespace Sys2Proof.Machine

/-- The reads of the CRC check are reads of RX[0..L-1], and its outcome is the comparison of R141. -/
theorem checkCrc_reads (s : State) (h : 4 ≤ s.rxlen.toNat) :
    ∃ body low high, body.length = s.rxlen.toNat - 2 ∧ s.rx.mayRead 0 (body ++ [low, high]) ∧
      (checkCrc s).1 = crc16 body ∧
      (checkCrc s).2.1 = decide (low = crcLow (crc16 body) ∧ high = crcHigh (crc16 body)) := by
  refine ⟨_, _, _, Memory.readSeq_length s.rx 0 _ s.draws, ?_, rfl, rfl⟩
  refine Memory.mayRead_append (Memory.readSeq_mayRead _ _ _ _) (Memory.mayRead_append (as := [_]) ?_ ?_)
  · rw [Memory.readSeq_length, Nat.zero_add]
    exact Memory.read_mayRead_one _ _ _
  · rw [Memory.readSeq_length, List.length_singleton, show 0 + (s.rxlen.toNat - 2) + 1 = s.rxlen.toNat - 1 by omega]
    exact Memory.read_mayRead_one _ _ _

/-- On a frame that is written in RX, the check is 42_validator.md R140 and draws nothing. -/
theorem checkCrc_holds {s : State} {f : List Byte} (hf : f.length = s.rxlen.toNat) (h4 : 4 ≤ f.length)
    (h : s.rx.holds 0 f) : checkCrc s = (crc16 (f.take (f.length - 2)), decide (CrcValid f), s.draws) := by
  have hbody : s.rx.holds 0 (f.take (f.length - 2)) := fun k b hb =>
    h k b (by rw [List.getElem?_take] at hb; split at hb <;> simp_all)
  have hread : s.rx.readSeq 0 (f.length - 2) s.draws = (f.take (f.length - 2), s.draws) := by
    simpa using Memory.readSeq_holds hbody s.draws
  have e1 : f[f.length - 2]? = some (f[f.length - 2]'(by omega)) := List.getElem?_eq_getElem _
  have e2 : f[f.length - 1]? = some (f[f.length - 1]'(by omega)) := List.getElem?_eq_getElem _
  have h1 := h _ _ e1
  have h2 := h _ _ e2
  rw [Nat.zero_add] at h1 h2
  simp only [checkCrc, ← hf, hread, Memory.read_written h1, Memory.read_written h2, CrcValid, h4, e1, e2, true_and,
    Option.some.injEq]

/-- VAL_CRC from length 4 on (R141). -/
theorem execValCrc_long {s : State} (h : 4 ≤ s.rxlen.toNat) :
    execValCrc s =
      .next ({ s with crc := (checkCrc s).1, draws := (checkCrc s).2.2 }.setResult
        (if (checkCrc s).2.1 then .ok else .invalidCrc16) 0#8 false) := by
  have hn : ¬ s.rxlen.toNat < Config.minFrame := by simpa [Config.minFrame] using h
  simp only [execValCrc, hn, if_false]
  split <;> rfl

/-- VAL_CRC on a frame that is written in RX. -/
theorem execValCrc_holds {s : State} {f : List Byte} (hf : f.length = s.rxlen.toNat) (h4 : 4 ≤ f.length)
    (h : s.rx.holds 0 f) :
    execValCrc s =
      .next ({ s with crc := crc16 (f.take (f.length - 2)) }.setResult
        (if CrcValid f then .ok else .invalidCrc16) 0#8 false) := by
  rw [execValCrc_long (by omega), checkCrc_holds hf h4 h]
  simp only [decide_eq_true_eq]

/-- VAL_RESP from length 4 on (R142). -/
theorem execValResp_long {sa fc : Byte} {s : State} (h : 4 ≤ s.rxlen.toNat) :
    execValResp sa fc s =
      .next (if (checkCrc s).2.1 then checkResponse sa fc { s with crc := (checkCrc s).1, draws := (checkCrc s).2.2 }
        else { s with crc := (checkCrc s).1, draws := (checkCrc s).2.2 }.finishResponse 0#9 0#8 .invalidCrc16 0#8) := by
  have hn : ¬ s.rxlen.toNat < Config.minFrame := by simpa [Config.minFrame] using h
  simp only [execValResp, hn, if_false]
  split <;> rfl

/-- What steps 3 and 4 of VAL_RESP can do: PLD, RESULT and the draws are written, by the bytes read (R142, R143). -/
theorem checkResponse_cases (sa fc : Byte) (s : State) :
    ∃ a f e, s.rx.mayRead 0 [a] ∧ s.rx.mayRead 1 [f] ∧ s.rx.mayRead 2 [e] ∧
      ∃ d, checkResponse sa fc s =
        if a ≠ sa then { s with draws := d }.finishResponse 0#9 0#8 .wrongSlave 0#8
        else if f = fc then { s with draws := d }.finishResponse (s.rxlen - 4#9) 2#8 .ok 0#8
        else if f = fc ||| 0x80#8 then { s with draws := d }.finishResponse 0#9 0#8 .exception e
        else { s with draws := d }.finishResponse 0#9 0#8 .malformed 0#8 := by
  refine ⟨_, _, _, Memory.read_mayRead_one s.rx 0 s.draws, Memory.read_mayRead_one s.rx 1 (s.rx.read 0 s.draws).2,
    Memory.read_mayRead_one s.rx 2 (s.rx.read 1 (s.rx.read 0 s.draws).2).2, ?_⟩
  simp only [checkResponse]
  split
  · exact ⟨_, rfl⟩
  · split
    · exact ⟨_, rfl⟩
    · split <;> exact ⟨_, rfl⟩

end Sys2Proof.Machine
end

