-- ==== Sys2Proof/Tests/Slice0.lean ====
section
/-! SUPPORT. The model's own tests. Every expected value is from spec/: the encodings of 30_encoding.md, the table of
40_frame_codec.md R102, and the vectors V<n> of 95_test_vectors.md. -/

open Sys2Proof Sys2Proof.Machine

namespace Sys2Proof.Tests

/-! ## Helpers -/

/-- The next state meets `p`. -/
def next (o : Host.Outcome State Fault Refusal) (p : State → Bool) : Bool :=
  match o with
  | .next t => p t
  | .fault _ => false
  | .refused _ => false

/-- The step stops with this fault. -/
def faults (o : Host.Outcome State Fault Refusal) (r : Fault) : Bool :=
  match o with
  | .next _ => false
  | .fault r' => r' == r
  | .refused _ => false

/-- The step is refused so. -/
def refuses (o : Host.Outcome State Fault Refusal) (r : Refusal) : Bool :=
  match o with
  | .next _ => false
  | .fault _ => false
  | .refused r' => r' == r

/-- A buffer that holds `bs` from index `i` on. -/
def bufferOf (i : Nat) (bs : List Byte) : Memory := Memory.writeAll [] i bs

/-- The buffer holds `bs` from index `i` on. -/
def has (m : Memory) (i : Nat) (bs : List Byte) : Bool := (List.range' i bs.length).map m.lookup == bs.map some

/-- STATUS and FINFO after a fatal fault. -/
def fatalWith (status info : Word) (t : State) : Bool := statusWord t.status == status && t.finfo == info

/-- The state after reset with a received frame in RX. -/
def received (bs : List Byte) : State := { State.reset with rx := bufferOf 0 bs, rxlen := BitVec.ofNat 9 bs.length }

/-- The same, with PLD holding something from before. -/
def stale (bs : List Byte) : State := { received bs with pld := { plen := 1#9, poff := 1#8 } }

/-- The state after reset with bytes in DATA. -/
def withData (i : Nat) (bs : List Byte) : State := { State.reset with data := bufferOf i bs }

/-- The state after reset with TXLEN at `n`. -/
def withTxlen (n : Len) : State := { State.reset with txlen := n }

/-- RESULT, CRC and PLD. -/
def outcome (t : State) : Word × Half × Word := (resultWord t.result, t.crc, pldWord t.pld)

/-- TX, TXLEN, CRC and RESULT after a request. -/
def frameIs (bs : List Byte) (crc : Half) (t : State) : Bool :=
  has t.tx 0 bs && t.txlen.toNat == bs.length && t.crc == crc && resultWord t.result == 0#32

/-- The state after reset with the host's operations to come. -/
def program (ops : List HostOp) : State := { State.reset with inputs := ops.map (Input.access .host) }

/-- A halted state, as after V131. -/
def halted : State :=
  { State.reset with
    status := { busy := false, fatal := true, fcause := 3#4 }, finfo := 0x101#32, arg := 0x00130025#32, rxlen := 5#9 }

/-- RESULT after an illegal word: KIND = 5 (R25). -/
def illegalResult : Result := { kind := 5#4, exc := 0#8, bit := false }

/-- A state with word `w` in the engine. -/
def pending (w : Word) : State := State.reset.withPending w

/-! ## Well-formed commands: each check of R74 refuses an ill-formed term -/

theorem test_wf_packBytes_257 : (Instr.packBytes 257#9).wf = false := by decide
theorem test_wf_packBytes_256 : (Instr.packBytes 256#9).wf = true := by decide
theorem test_wf_bitSet_257 : (Instr.bitSet 0#11 257#9 true).wf = false := by decide
theorem test_wf_bitSet_256 : (Instr.bitSet 2047#11 256#9 true).wf = true := by decide
theorem test_wf_bitGet_257 : (Instr.bitGet 0#11 257#9).wf = false := by decide
theorem test_wf_bitGet_256 : (Instr.bitGet 2047#11 256#9).wf = true := by decide

/-! ## Decoding: the words of 95_test_vectors.md, written out by the formats of 30_encoding.md R71, R73 -/

theorem test_decode_nop : decode 0x00000000#32 = .ok (.nop) := by decide
theorem test_decode_beginPack : decode 0x00030101#32 = .ok (.beginPack 1#8 3#8) := by decide
theorem test_decode_beginPack_fc : decode 0x0090F701#32 = .ok (.beginPack 0xF7#8 0x90#8) := by decide
theorem test_decode_packByte : decode 0x00002A02#32 = .ok (.packByte 0x2A#8) := by decide
theorem test_decode_packWord : decode 0x00123403#32 = .ok (.packWord 0x1234#16) := by decide
theorem test_decode_packBytes : decode 0x00010004#32 = .ok (.packBytes 256#9) := by decide
theorem test_decode_endPack : decode 0x00000005#32 = .ok (.endPack) := by decide
theorem test_decode_crcInit : decode 0x00000008#32 = .ok (.crcInit) := by decide
theorem test_decode_crcFeed : decode 0x0000C409#32 = .ok (.crcFeed 0xC4#8) := by decide
theorem test_decode_valCrc : decode 0x00000010#32 = .ok (.valCrc) := by decide
theorem test_decode_valResp : decode 0x00030111#32 = .ok (.valResp 1#8 3#8) := by decide
theorem test_decode_bitSet : decode 0x1807FF18#32 = .ok (.bitSet 2047#11 256#9 true) := by decide
theorem test_decode_bitSet_clear : decode 0x00080318#32 = .ok (.bitSet 3#11 1#9 false) := by decide
theorem test_decode_bitGet : decode 0x00100919#32 = .ok (.bitGet 9#11 2#9) := by decide
theorem test_decode_reqRdCoils : decode 0x00001121#32 = .ok (.reqRdCoils 0x11#8) := by decide
theorem test_decode_reqRdDisc : decode 0x00001122#32 = .ok (.reqRdDisc 0x11#8) := by decide
theorem test_decode_reqRdHregs : decode 0x00000123#32 = .ok (.reqRdHregs 1#8) := by decide
theorem test_decode_reqRdIregs : decode 0x00001124#32 = .ok (.reqRdIregs 0x11#8) := by decide
theorem test_decode_reqWrCoil : decode 0x00011125#32 = .ok (.reqWrCoil 0x11#8 true) := by decide
theorem test_decode_reqWrCoil_false : decode 0x00001125#32 = .ok (.reqWrCoil 0x11#8 false) := by decide
theorem test_decode_reqWrReg : decode 0x00001126#32 = .ok (.reqWrReg 0x11#8) := by decide
theorem test_decode_reqWrCoils : decode 0x0000112F#32 = .ok (.reqWrCoils 0x11#8) := by decide
theorem test_decode_reqWrRegs : decode 0x00001130#32 = .ok (.reqWrRegs 0x11#8) := by decide
theorem test_decode_table_word : decodeTableWord 32 0x00030101 = some (.beginPack 1#8 3#8) := by decide

/-- V100 to V104: reserved opcodes. -/
theorem test_illegal_opcodes :
    [0x00000006#32, 0x00000007#32, 0x00000020#32, 0x00000031#32, 0x000000FF#32].map decode =
      List.replicate 5 (.error .reservedOpcode) := by decide

/-- V105 to V110, V112, V115 to V117: reserved bits. -/
theorem test_illegal_reserved_bits :
    [0x00000100#32, 0x00010000#32, 0x01000005#32, 0x00010008#32, 0x01000003#32, 0x01000001#32, 0x20000018#32, 0x00020023#32,
      0x00020025#32, 0x40000025#32].map decode = List.replicate 10 (.error .reservedBits) := by decide

/-- V111, V113, V114, V51: field values. -/
theorem test_illegal_fields :
    [0x00010104#32, 0x08080018#32, 0x10080019#32, 0x08080019#32].map decode = List.replicate 4 (.error .fieldRange) := by
  decide

/-! ## The CRC (R102, R106, V1 to V8) -/

/-- The listing of R102, rows 0x00 to 0x38. -/
theorem test_crc_table_0 :
    (List.range' 0 64).map (fun i => crcTable (BitVec.ofNat 8 i)) =
      [0x0000#16, 0xC0C1#16, 0xC181#16, 0x0140#16, 0xC301#16, 0x03C0#16, 0x0280#16, 0xC241#16,
        0xC601#16, 0x06C0#16, 0x0780#16, 0xC741#16, 0x0500#16, 0xC5C1#16, 0xC481#16, 0x0440#16] ++
      [0xCC01#16, 0x0CC0#16, 0x0D80#16, 0xCD41#16, 0x0F00#16, 0xCFC1#16, 0xCE81#16, 0x0E40#16,
        0x0A00#16, 0xCAC1#16, 0xCB81#16, 0x0B40#16, 0xC901#16, 0x09C0#16, 0x0880#16, 0xC841#16] ++
      [0xD801#16, 0x18C0#16, 0x1980#16, 0xD941#16, 0x1B00#16, 0xDBC1#16, 0xDA81#16, 0x1A40#16,
        0x1E00#16, 0xDEC1#16, 0xDF81#16, 0x1F40#16, 0xDD01#16, 0x1DC0#16, 0x1C80#16, 0xDC41#16] ++
      [0x1400#16, 0xD4C1#16, 0xD581#16, 0x1540#16, 0xD701#16, 0x17C0#16, 0x1680#16, 0xD641#16,
        0xD201#16, 0x12C0#16, 0x1380#16, 0xD341#16, 0x1100#16, 0xD1C1#16, 0xD081#16, 0x1040#16] := by
  decide

/-- The listing of R102, rows 0x40 to 0x78. -/
theorem test_crc_table_1 :
    (List.range' 64 64).map (fun i => crcTable (BitVec.ofNat 8 i)) =
      [0xF001#16, 0x30C0#16, 0x3180#16, 0xF141#16, 0x3300#16, 0xF3C1#16, 0xF281#16, 0x3240#16,
        0x3600#16, 0xF6C1#16, 0xF781#16, 0x3740#16, 0xF501#16, 0x35C0#16, 0x3480#16, 0xF441#16] ++
      [0x3C00#16, 0xFCC1#16, 0xFD81#16, 0x3D40#16, 0xFF01#16, 0x3FC0#16, 0x3E80#16, 0xFE41#16,
        0xFA01#16, 0x3AC0#16, 0x3B80#16, 0xFB41#16, 0x3900#16, 0xF9C1#16, 0xF881#16, 0x3840#16] ++
      [0x2800#16, 0xE8C1#16, 0xE981#16, 0x2940#16, 0xEB01#16, 0x2BC0#16, 0x2A80#16, 0xEA41#16,
        0xEE01#16, 0x2EC0#16, 0x2F80#16, 0xEF41#16, 0x2D00#16, 0xEDC1#16, 0xEC81#16, 0x2C40#16] ++
      [0xE401#16, 0x24C0#16, 0x2580#16, 0xE541#16, 0x2700#16, 0xE7C1#16, 0xE681#16, 0x2640#16,
        0x2200#16, 0xE2C1#16, 0xE381#16, 0x2340#16, 0xE101#16, 0x21C0#16, 0x2080#16, 0xE041#16] := by
  decide

/-- The listing of R102, rows 0x80 to 0xB8. -/
theorem test_crc_table_2 :
    (List.range' 128 64).map (fun i => crcTable (BitVec.ofNat 8 i)) =
      [0xA001#16, 0x60C0#16, 0x6180#16, 0xA141#16, 0x6300#16, 0xA3C1#16, 0xA281#16, 0x6240#16,
        0x6600#16, 0xA6C1#16, 0xA781#16, 0x6740#16, 0xA501#16, 0x65C0#16, 0x6480#16, 0xA441#16] ++
      [0x6C00#16, 0xACC1#16, 0xAD81#16, 0x6D40#16, 0xAF01#16, 0x6FC0#16, 0x6E80#16, 0xAE41#16,
        0xAA01#16, 0x6AC0#16, 0x6B80#16, 0xAB41#16, 0x6900#16, 0xA9C1#16, 0xA881#16, 0x6840#16] ++
      [0x7800#16, 0xB8C1#16, 0xB981#16, 0x7940#16, 0xBB01#16, 0x7BC0#16, 0x7A80#16, 0xBA41#16,
        0xBE01#16, 0x7EC0#16, 0x7F80#16, 0xBF41#16, 0x7D00#16, 0xBDC1#16, 0xBC81#16, 0x7C40#16] ++
      [0xB401#16, 0x74C0#16, 0x7580#16, 0xB541#16, 0x7700#16, 0xB7C1#16, 0xB681#16, 0x7640#16,
        0x7200#16, 0xB2C1#16, 0xB381#16, 0x7340#16, 0xB101#16, 0x71C0#16, 0x7080#16, 0xB041#16] := by
  decide

/-- The listing of R102, rows 0xC0 to 0xF8. -/
theorem test_crc_table_3 :
    (List.range' 192 64).map (fun i => crcTable (BitVec.ofNat 8 i)) =
      [0x5000#16, 0x90C1#16, 0x9181#16, 0x5140#16, 0x9301#16, 0x53C0#16, 0x5280#16, 0x9241#16,
        0x9601#16, 0x56C0#16, 0x5780#16, 0x9741#16, 0x5500#16, 0x95C1#16, 0x9481#16, 0x5440#16] ++
      [0x9C01#16, 0x5CC0#16, 0x5D80#16, 0x9D41#16, 0x5F00#16, 0x9FC1#16, 0x9E81#16, 0x5E40#16,
        0x5A00#16, 0x9AC1#16, 0x9B81#16, 0x5B40#16, 0x9901#16, 0x59C0#16, 0x5880#16, 0x9841#16] ++
      [0x8801#16, 0x48C0#16, 0x4980#16, 0x8941#16, 0x4B00#16, 0x8BC1#16, 0x8A81#16, 0x4A40#16,
        0x4E00#16, 0x8EC1#16, 0x8F81#16, 0x4F40#16, 0x8D01#16, 0x4DC0#16, 0x4C80#16, 0x8C41#16] ++
      [0x4400#16, 0x84C1#16, 0x8581#16, 0x4540#16, 0x8701#16, 0x47C0#16, 0x4680#16, 0x8641#16,
        0x8201#16, 0x42C0#16, 0x4380#16, 0x8341#16, 0x4100#16, 0x81C1#16, 0x8081#16, 0x4040#16] := by
  decide

theorem test_crc16_V1 : crc16 [] = 0xFFFF#16 := by decide
theorem test_crc16_V2 : crc16 [0x00#8] = 0x40BF#16 := by decide
theorem test_crc16_V3 : crc16 [0xFF#8] = 0x00FF#16 := by decide
theorem test_crc16_V4 : crc16 [0x31#8, 0x32#8, 0x33#8, 0x34#8, 0x35#8, 0x36#8, 0x37#8, 0x38#8, 0x39#8] = 0x4B37#16 := by decide
theorem test_crc16_V5 : crc16 [0x01#8, 0x03#8, 0x00#8, 0x00#8, 0x00#8, 0x02#8] = 0x0BC4#16 := by decide
theorem test_crc16_V6 : crc16 [0x01#8, 0x03#8, 0x00#8, 0x00#8, 0x00#8, 0x02#8, 0xC4#8, 0x0B#8] = 0x0000#16 := by decide
theorem test_crc16_V7 : crc16 [0x01#8, 0x83#8, 0x02#8] = 0xF1C0#16 := by decide
theorem test_crc16_V8 : crc16 [0x11#8, 0x0F#8, 0x00#8, 0x13#8, 0x00#8, 0x0A#8, 0x02#8, 0xCD#8, 0x01#8] = 0x0BBF#16 := by decide

/-! ## The commands -/

/-- V118. -/
theorem test_nop_V118 :
    next (exec .nop { State.reset with result := { kind := 4#4, exc := 2#8, bit := false } })
      (fun t => resultWord t.result == 0#32 && t == State.reset) = true := by
  decide

theorem test_crcInit_V13 :
    next (exec .crcInit { State.reset with crc := 0x1234#16 }) (fun t => t == State.reset) = true := by
  decide

theorem test_crcFeed_V10 :
    next (exec (.crcFeed 0x01#8) State.reset) (fun t => t == { State.reset with crc := 0x807E#16 }) = true := by
  decide

theorem test_crcFeed_V12 :
    next (exec (.crcFeed 0xC4#8) { State.reset with crc := 0x0BC4#16 }) (fun t => t.crc == 0x000B#16) = true := by
  decide

theorem test_beginPack_V21 :
    next (exec (.beginPack 0xF7#8 0x90#8) State.reset) (fun t => has t.tx 0 [0xF7#8, 0x90#8] && t.txlen == 2#9) = true := by
  decide

theorem test_beginPack_V22 :
    next (exec (.beginPack 0#8 0#8) { State.reset with tx := bufferOf 0 [1#8, 2#8, 3#8, 4#8], txlen := 4#9 })
      (fun t => has t.tx 0 [0#8, 0#8, 3#8, 4#8] && t.txlen == 2#9) = true := by
  decide

theorem test_packByte_V24 :
    next (exec (.packByte 0x2A#8) (withTxlen 255#9)) (fun t => has t.tx 255 [0x2A#8] && t.txlen == 256#9) = true := by
  decide

theorem test_packByte_V25 :
    next (exec (.packByte 0x2A#8) (withTxlen 256#9)) (fatalWith 0x00000012#32 0x00002A02#32) = true := by
  decide

theorem test_packWord_V27 :
    next (exec (.packWord 0x1234#16) (withTxlen 254#9)) (fun t => has t.tx 254 [0x12#8, 0x34#8] && t.txlen == 256#9) = true := by
  decide

theorem test_packWord_V28 :
    next (exec (.packWord 0x1234#16) (withTxlen 255#9)) (fatalWith 0x00000012#32 0x00123403#32) = true := by
  decide

theorem test_packBytes_V29 :
    next (exec (.packBytes 2#9) { withData 0 [0xCD#8, 0x01#8] with txlen := 7#9 })
      (fun t => has t.tx 7 [0xCD#8, 0x01#8] && t.txlen == 9#9 && has t.data 0 [0xCD#8, 0x01#8]) = true := by
  decide

theorem test_packBytes_V31 :
    next (exec (.packBytes 1#9) (withTxlen 256#9)) (fatalWith 0x00000012#32 0x00000104#32) = true := by
  decide

theorem test_endPack_V35 :
    next (exec .endPack { State.reset with tx := bufferOf 0 [0x01#8, 0x03#8, 0x00#8, 0x00#8, 0x00#8, 0x02#8], txlen := 6#9 })
      (frameIs [0x01#8, 0x03#8, 0x00#8, 0x00#8, 0x00#8, 0x02#8, 0xC4#8, 0x0B#8] 0x0BC4#16) = true := by
  decide

theorem test_endPack_V36 :
    next (exec .endPack State.reset) (frameIs [0xFF#8, 0xFF#8] 0xFFFF#16) = true := by
  decide

theorem test_bitSet_V42 :
    next (exec (.bitSet 3#11 1#9 false) (withData 0 [0xFF#8])) (fun t => t == withData 0 [0xF7#8]) = true := by
  decide

theorem test_bitSet_V47 :
    next (exec (.bitSet 8#11 1#9 true) State.reset) (fatalWith 0x00000022#32 0x10080818#32) = true := by
  decide

theorem test_bitGet_V41 :
    next (exec (.bitGet 9#11 2#9) (withData 1 [0x02#8])) (fun t => resultWord t.result == 0x00010000#32) = true := by
  decide

theorem test_bitGet_V49 :
    next (exec (.bitGet 0#11 0#9) State.reset) (fatalWith 0x00000022#32 0x00000019#32) = true := by
  decide

theorem test_valCrc_V53 :
    next (exec .valCrc (received [0x01#8, 0x03#8, 0x04#8, 0x00#8, 0x0A#8, 0x01#8, 0x02#8, 0x5A#8, 0x60#8]))
      (fun t => outcome t == (0x00000000#32, 0x605A#16, 0#32)) = true := by
  decide

theorem test_valCrc_S2 :
    next (exec .valCrc (received [0x01#8, 0x03#8, 0x04#8, 0x01#8, 0x0A#8, 0x01#8, 0x02#8, 0x5A#8, 0x60#8]))
      (fun t => outcome t == (0x00000001#32, 0x9C5B#16, 0#32)) = true := by
  decide

/-- V54, V64: a response that matches. -/
theorem test_valResp_ok :
    (next (exec (.valResp 1#8 0x03#8) (stale [0x01#8, 0x03#8, 0x04#8, 0x00#8, 0x0A#8, 0x01#8, 0x02#8, 0x5A#8, 0x60#8]))
        (fun t => outcome t == (0x00000000#32, 0x605A#16, 0x00020005#32))) &&
      (next (exec (.valResp 1#8 0x90#8) (stale [0x01#8, 0x90#8, 0x05#8, 0x8C#8, 0x03#8]))
        (fun t => outcome t == (0x00000000#32, 0x038C#16, 0x00020001#32))) := by
  decide

/-- V56, V57, V58, V61, V65: the other outcomes, in the order of checks. -/
theorem test_valResp_rejects :
    (next (exec (.valResp 1#8 0x03#8) (stale [0x02#8, 0x03#8, 0x04#8, 0x00#8, 0x0A#8, 0x01#8, 0x02#8, 0x69#8, 0x00#8]))
        (fun t => outcome t == (0x00000001#32, 0x6069#16, 0#32))) &&
      (next (exec (.valResp 1#8 0x03#8) (stale [0x02#8, 0x03#8, 0x04#8, 0x00#8, 0x0A#8, 0x01#8, 0x02#8, 0x69#8, 0x60#8]))
        (fun t => outcome t == (0x00000002#32, 0x6069#16, 0#32))) &&
      (next (exec (.valResp 1#8 0x03#8) (stale [0x01#8, 0x04#8, 0x02#8, 0x00#8, 0x00#8, 0xB9#8, 0x30#8]))
        (fun t => outcome t == (0x00000003#32, 0x30B9#16, 0#32))) &&
      (next (exec (.valResp 1#8 0x03#8) (stale [0x01#8, 0x83#8, 0x41#8, 0x81#8]))
        (fun t => outcome t == (0x00004104#32, 0x8141#16, 0#32))) &&
      (next (exec (.valResp 1#8 0x03#8) (stale [0x01#8, 0x03#8, 0x00#8]))
        (fun t => outcome t == (0x00000003#32, 0xFFFF#16, 0#32))) := by
  decide

theorem test_reqRdCoils_V70 :
    next (exec (.reqRdCoils 0x11#8) { withData 0 [] with arg := 0x00130025#32 })
      (frameIs [0x11#8, 0x01#8, 0x00#8, 0x13#8, 0x00#8, 0x25#8, 0x0E#8, 0x84#8]
        0x840E#16) = true := by
  decide

theorem test_reqRdDisc_V71 :
    next (exec (.reqRdDisc 0x11#8) { withData 0 [] with arg := 0x00C40016#32 })
      (frameIs [0x11#8, 0x02#8, 0x00#8, 0xC4#8, 0x00#8, 0x16#8, 0xBA#8, 0xA9#8]
        0xA9BA#16) = true := by
  decide

theorem test_reqRdHregs_V72 :
    next (exec (.reqRdHregs 1#8) { withData 0 [] with arg := 0x00000002#32 })
      (frameIs [0x01#8, 0x03#8, 0x00#8, 0x00#8, 0x00#8, 0x02#8, 0xC4#8, 0x0B#8]
        0x0BC4#16) = true := by
  decide

theorem test_reqRdIregs_V73 :
    next (exec (.reqRdIregs 0x11#8) { withData 0 [] with arg := 0x00080001#32 })
      (frameIs [0x11#8, 0x04#8, 0x00#8, 0x08#8, 0x00#8, 0x01#8, 0xB2#8, 0x98#8]
        0x98B2#16) = true := by
  decide

theorem test_reqWrCoil_V75 :
    next (exec (.reqWrCoil 0x11#8 false) { withData 0 [] with arg := 0x00AC0000#32 })
      (frameIs [0x11#8, 0x05#8, 0x00#8, 0xAC#8, 0x00#8, 0x00#8, 0x0F#8, 0x7B#8]
        0x7B0F#16) = true := by
  decide

theorem test_reqWrCoil_V76 :
    next (exec (.reqWrCoil 0x11#8 true) { withData 0 [] with arg := 0x00AC1234#32 })
      (frameIs [0x11#8, 0x05#8, 0x00#8, 0xAC#8, 0xFF#8, 0x00#8, 0x4E#8, 0x8B#8]
        0x8B4E#16) = true := by
  decide

theorem test_reqWrReg_V77 :
    next (exec (.reqWrReg 0x11#8) { withData 0 [] with arg := 0x00010003#32 })
      (frameIs [0x11#8, 0x06#8, 0x00#8, 0x01#8, 0x00#8, 0x03#8, 0x9A#8, 0x9B#8]
        0x9B9A#16) = true := by
  decide

theorem test_reqWrCoils_V78 :
    next (exec (.reqWrCoils 0x11#8) { withData 0 [0xCD#8, 0x01#8] with arg := 0x0013000A#32 })
      (frameIs [0x11#8, 0x0F#8, 0x00#8, 0x13#8, 0x00#8, 0x0A#8, 0x02#8, 0xCD#8, 0x01#8, 0xBF#8, 0x0B#8]
        0x0BBF#16) = true := by
  decide

theorem test_reqWrRegs_V79 :
    next (exec (.reqWrRegs 0x11#8) { withData 0 [0x00#8, 0x0A#8, 0x01#8, 0x02#8] with arg := 0x00010002#32 })
      (frameIs [0x11#8, 0x10#8, 0x00#8, 0x01#8, 0x00#8, 0x02#8, 0x04#8, 0x00#8, 0x0A#8, 0x01#8, 0x02#8, 0xC6#8, 0xF0#8]
        0xF0C6#16) = true := by
  decide

theorem test_reqWrCoils_V87 :
    next (exec (.reqWrCoils 0x11#8) { State.reset with arg := 0x000007C9#32 })
      (fatalWith 0x00000012#32 0x0000112F#32) = true := by
  decide

theorem test_reqWrRegs_V90 :
    next (exec (.reqWrRegs 0x11#8) { State.reset with arg := 0x00000080#32 })
      (fatalWith 0x00000012#32 0x00001130#32) = true := by
  decide

/-! ## Steps -/

/-- The command word placed for the first step after reset runs (V20). -/
theorem test_step_fetch_word :
    next (step (State.reset.withFetchWord 32 0x00030101))
      (fun t => has t.tx 0 [0x01#8, 0x03#8] && t.txlen == 2#9 && statusWord t.status == 0#32 && t.pend == none) = true := by
  decide

/-- V34, V111. -/
theorem test_step_illegal_V111 :
    next (step { pending 0x00010104#32 with txlen := 5#9, crc := 0x1234#16 })
      (fun t => t == { { State.reset with txlen := 5#9, crc := 0x1234#16 } with result := illegalResult }) = true := by
  decide

/-- V120, the write. -/
theorem test_write_rx_V120 :
    next (step (program [.write 0x200#10 .word 0x00000301#32]))
      (fun t => has t.rx 0 [0x01#8, 0x03#8, 0x00#8, 0x00#8]) = true := by
  decide

/-- V120, a read. -/
theorem test_read_rx_V120 :
    next (step { program [.read 0x201#10 .byte] with rx := bufferOf 0 [0x01#8, 0x03#8, 0x00#8, 0x00#8] })
      (fun t => t.rdata == some 0x03#32) = true := by
  decide

/-- V121. -/
theorem test_write_data_V121 :
    next (step (program [.write 0x302#10 .half 0xBEEF#32])) (fun t => has t.data 2 [0xEF#8, 0xBE#8]) = true := by
  decide

/-- V122. -/
theorem test_write_tx_V122 :
    next (step (program [.write 0x100#10 .byte 0x55#32])) (fun t => t == State.reset) = true := by
  decide

/-- V123. -/
theorem test_access_error_V123 :
    faults (step (program [.write 0x004#10 .half 0x1234#32])) (.hostAccessError 0x004#10 .half) = true := by
  decide

/-- V124. -/
theorem test_access_error_V124 :
    faults (step (program [.write 0x201#10 .word 0#32])) (.hostAccessError 0x201#10 .word) = true := by
  decide

/-- V127. -/
theorem test_read_only_V127 :
    next (step (program [.write 0x014#10 .word 7#32])) (fun t => t == State.reset) = true := by
  decide

/-- V129. -/
theorem test_arg_V129 :
    next (step (program [.write 0x004#10 .word 0xDEADBEEF#32])) (fun t => t.arg == 0xDEADBEEF#32) = true := by
  decide

/-- V130. -/
theorem test_rxlen_V130 :
    next (step (program [.write 0x018#10 .word 256#32])) (fun t => t.rxlen == 256#9 && statusWord t.status == 0#32) = true := by
  decide

/-- V132. -/
theorem test_rxlen_V132 :
    next (step { program [.write 0x018#10 .word 0x80000000#32] with rxlen := 5#9 })
      (fun t => fatalWith 0x00000032#32 0x80000000#32 t && t.rxlen == 5#9) = true := by
  decide

/-- V133. -/
theorem test_halted_cmd_V133 :
    next (step { halted with inputs := [.access .host (.write 0x000#10 .word 0#32)] }) (fun t => t == halted) = true := by
  decide

/-- V135. -/
theorem test_halted_read_V135 :
    next (step { halted with inputs := [.access .host (.read 0x024#10 .word)] }) (fun t => t.rdata == some 0x101#32) = true := by
  decide

/-- V138. -/
theorem test_halted_reset_V138 :
    next (step { halted with inputs := [.access .host (.write 0x020#10 .word 0xFFFFFFFF#32)] })
      (fun t => t == State.reset) = true := by
  decide

/-- P5: a TXLEN read while BUSY = 1. -/
theorem test_violation_P5 :
    faults (step { pending 0x00000123#32 with inputs := [.access .host (.read 0x014#10 .word)], latency := 1 })
      .hostProtocolViolation = true := by
  decide

/-- 20_memory.md R63. -/
theorem test_second_host :
    refuses (step { State.reset with inputs := [.access .other (.read 0x008#10 .word)] }) .secondHostAgent = true := by
  decide

theorem test_memory_reset_wf : State.reset.tx.wf = true ∧ State.reset.rx.wf = true ∧ State.reset.data.wf = true := by decide

/-! ## Witnesses: states and operands that meet the hypotheses of each obligation, clause by clause

The number in a name is that of the clause. -/

theorem witness_DecodeOfEncode : (Instr.bitSet 2047#11 256#9 true).wf = true := by decide

theorem witness_EncodeOfDecode : decode 0x10100918#32 = .ok (.bitSet 9#11 2#9 true) := by decide

theorem witness_DecoderReadsOpcodeTable_1 :
    ⟨.packBytes, 0xFFFE00FF#32, 0x00000004#32⟩ ∈ opcodeRows ∧ 0x00010004#32 &&& 0xFFFE00FF#32 = 0x00000004#32 ∧
      fieldsInRange .packBytes 0x00010004#32 = true := by decide

theorem witness_DecoderReadsOpcodeTable_2 :
    ⟨.packBytes, 0xFFFE00FF#32, 0x00000004#32⟩ ∈ opcodeRows ∧ 0x00010104#32 &&& 0xFFFE00FF#32 = 0x00000004#32 ∧
      fieldsInRange .packBytes 0x00010104#32 = false := by decide

theorem witness_DecoderReadsOpcodeTable_3 :
    (∀ r ∈ opcodeRows, 0x00000006#32 &&& r.mask ≠ r.pattern) ∧
      ∀ r ∈ opcodeRows, 0x01000005#32 &&& r.mask ≠ r.pattern := by
  decide

theorem witness_NopRecordsOkOnly : opField 0x00000000#32 = 0x00#8 ∧ opField 0x00000100#32 = 0x00#8 := by decide

/-- The frame of S2 in RX. -/
theorem holds_bufferOf (bs : List Byte) : (bufferOf 0 bs).holds 0 bs := Memory.writeAll_holds [] 0 bs

theorem witness_SingleBitErrorIsDetected :
    CrcValid [0x01#8, 0x83#8, 0x02#8, 0xC0#8, 0xF1#8] ∧
      [0x01#8, 0x83#8, 0x02#8, 0xC0#8, 0xF1#8].length =
        (received [0x01#8, 0x83#8, 0x02#8, 0xC0#8, 0xF1#8]).rxlen.toNat ∧
      (received [0x01#8, 0x83#8, 0x02#8, 0xC0#8, 0xF1#8]).rx.holds 0 [0x01#8, 0x83#8, 0x02#8, 0xC0#8, 0xF1#8] ∧
      4 < [0x01#8, 0x83#8, 0x02#8, 0xC0#8, 0xF1#8].length ∧ 7 < 8 ∧
      (received (flipBit [0x01#8, 0x83#8, 0x02#8, 0xC0#8, 0xF1#8] 4 7)).rxlen =
        (received [0x01#8, 0x83#8, 0x02#8, 0xC0#8, 0xF1#8]).rxlen ∧
      (received (flipBit [0x01#8, 0x83#8, 0x02#8, 0xC0#8, 0xF1#8] 4 7)).rx.holds 0
        (flipBit [0x01#8, 0x83#8, 0x02#8, 0xC0#8, 0xF1#8] 4 7) :=
  ⟨by decide, by decide, holds_bufferOf _, by decide, by decide, by decide, holds_bufferOf _⟩

theorem witness_CrcStreamGivesCrc16 : State.reset.status.fatal = false := rfl

theorem witness_PackByteEffect_1 : (withTxlen 255#9).txlen.toNat + 1 ≤ 256 := by decide
theorem witness_PackByteEffect_2 : 256 < (withTxlen 256#9).txlen.toNat + 1 := by decide

theorem witness_PackWordEffect_1 : (withTxlen 254#9).txlen.toNat + 2 ≤ 256 := by decide
theorem witness_PackWordEffect_2 : 256 < (withTxlen 255#9).txlen.toNat + 2 := by decide

theorem witness_PackBytesEffect_1 : (withTxlen 0#9).txlen.toNat + (256#9).toNat ≤ 256 := by decide
theorem witness_PackBytesEffect_2 : 256 < (withTxlen 1#9).txlen.toNat + (256#9).toNat := by decide

theorem witness_EndPackEffect_1 : (withTxlen 254#9).txlen.toNat + 2 ≤ 256 := by decide
theorem witness_EndPackEffect_2 : 256 < (withTxlen 255#9).txlen.toNat + 2 := by decide

/-- The frame of V20 with one payload byte, and the state that VAL_CRC starts in. -/
theorem witness_PackedFrameValidates :
    (∀ i ∈ [Instr.packByte 0x2A#8], packsPayload i = true) ∧
      ∃ t, runCommands (.beginPack 1#8 3#8 :: [.packByte 0x2A#8] ++ [.endPack]) State.reset = some t ∧
        t.txlen = 5#9 ∧ (∃ f, f.length = 5 ∧ { State.reset with rx := t.tx, rxlen := t.txlen }.rx.holds 0 f) ∧
          { State.reset with rx := t.tx, rxlen := t.txlen }.rxlen = t.txlen :=
  ⟨by decide, _, rfl, by decide, Memory.exists_holds (by decide), rfl⟩

theorem witness_BitSetEffect_1 : (2047#11).toNat / 8 < (256#9).toNat := by decide
theorem witness_BitSetEffect_2 : (1#9).toNat ≤ (8#11).toNat / 8 := by decide
theorem witness_BitGetEffect_1 : (0#11).toNat / 8 < (1#9).toNat := by decide
theorem witness_BitGetEffect_2 : (0#9).toNat ≤ (0#11).toNat / 8 := by decide

theorem witness_BitRoundTrip :
    (256#9).toNat ≤ 256 ∧ (2047#11).toNat / 8 < (256#9).toNat ∧ 2039#11 ≠ 2047#11 ∧
      (withData 254 [0x5A#8]).data.lookup ((2039#11).toNat / 8) = some 0x5A#8 ∧
      (2039#11).toNat / 8 ≠ (2047#11).toNat / 8 := by decide

theorem witness_ValCrcEffect_1 : { State.reset with rxlen := 3#9 }.rxlen.toNat < 4 := by decide
theorem witness_ValCrcEffect_2 : 4 ≤ { State.reset with rxlen := 4#9 }.rxlen.toNat := by decide
theorem witness_ValRespEffect_1 : { State.reset with rxlen := 3#9 }.rxlen.toNat < 4 := by decide
theorem witness_ValRespEffect_2 : 4 ≤ { State.reset with rxlen := 256#9 }.rxlen.toNat := by decide

theorem witness_ArgRequestFrames :
    (Instr.reqRdHregs 1#8, 0x03#8) ∈ [(Instr.reqRdCoils 1#8, 0x01#8), (.reqRdDisc 1#8, 0x02#8), (.reqRdHregs 1#8, 0x03#8),
      (.reqRdIregs 1#8, 0x04#8), (.reqWrReg 1#8, 0x06#8)] := by decide

theorem witness_CoilsRequestFrame_1 :
    247 = (({ State.reset with arg := 0x000007B8#32 }.arg.extractLsb' 0 16).toNat + 7) / 8 ∧ 9 + 247 ≤ 256 := by decide
theorem witness_CoilsRequestFrame_2 :
    248 = (({ State.reset with arg := 0x000007B9#32 }.arg.extractLsb' 0 16).toNat + 7) / 8 ∧ 256 < 9 + 248 := by decide
theorem witness_RegistersRequestFrame_1 :
    246 = 2 * ({ State.reset with arg := 0x0000007B#32 }.arg.extractLsb' 0 16).toNat ∧ 9 + 246 ≤ 256 := by decide
theorem witness_RegistersRequestFrame_2 :
    248 = 2 * ({ State.reset with arg := 0x0000007C#32 }.arg.extractLsb' 0 16).toNat ∧ 256 < 9 + 248 := by decide

theorem witness_RequestEqualsPrimitives_1 :
    isRequest (.reqRdHregs 1#8) = true ∧ State.reset.status.fatal = false ∧
      requestData (.reqRdHregs 1#8) State.reset.arg ≤ 256 ∧
      (runCommands (requestCommands (.reqRdHregs 1#8) State.reset.arg) State.reset).isSome = true := by decide
theorem witness_RequestEqualsPrimitives_2 :
    isRequest (.reqWrCoils 0x11#8) = true ∧ { State.reset with arg := 0x000007C9#32 }.status.fatal = false ∧
      requestData (.reqWrCoils 0x11#8) { State.reset with arg := 0x000007C9#32 }.arg ≤ 256 ∧
      (runCommands (requestCommands (.reqWrCoils 0x11#8) { State.reset with arg := 0x000007C9#32 }.arg)
        { State.reset with arg := 0x000007C9#32 }).isNone = true := by decide

theorem witness_CommandWriteSets :
    next (exec .nop State.reset) (fun t => !t.status.fatal) = true ∧ writesTx .nop = false ∧ writesCrc .nop = false ∧
      writesPld .nop = false ∧ writesData .nop = false := by decide

theorem witness_OnlyRequestsReadArg : isRequest (.crcFeed 1#8) = false := by decide

theorem witness_HaltedBlockIgnoresWrites_1 :
    halted.status.fatal = true ∧
      { halted with inputs := [.access .host (.write 0x000#10 .word 0#32)] }.inputs =
        [.access .host (.write 0x000#10 .word 0#32)] ∧
      LegalAccess 0x000#10 .word ∧ 0x000#10 ≠ 0x020#10 ∧ LegalAccess 0x3FF#10 .byte ∧ 0x3FF#10 ≠ 0x020#10 := by decide
theorem witness_HaltedBlockIgnoresWrites_2 :
    { halted with inputs := [.access .host (.write 0x020#10 .word 1#32)] }.status.fatal = true ∧
      { halted with inputs := [.access .host (.write 0x020#10 .word 1#32)] }.inputs =
        [.access .host (.write 0x020#10 .word 1#32)] ∧ (1#32).getLsbD 0 = true := by decide
theorem witness_HaltedBlockIgnoresWrites_3 :
    { halted with inputs := [.access .host (.read 0x024#10 .word)] }.status.fatal = true ∧
      { halted with inputs := [.access .host (.read 0x024#10 .word)] }.inputs =
        [.access .host (.read 0x024#10 .word)] ∧ LegalAccess 0x024#10 .word := by decide
theorem witness_HaltedBlockIgnoresWrites_4 : halted.status.fatal = true ∧ halted.inputs = [] := by decide

theorem witness_OnlyResetLeavesFatal :
    halted.status.fatal = true ∧ next (step halted) (fun t => t == halted) = true ∧
      next (step { halted with inputs := [.hardwareReset] }) (fun t => t == State.reset) = true := by decide

theorem witness_StepRunsPendingCommand :
    (pending 0x00030101#32).engineTurn = true ∧ (pending 0x00030101#32).pend = some 0x00030101#32 ∧
      decode 0x00030101#32 = .ok (.beginPack 1#8 3#8) := by decide

theorem witness_IllegalWordEffect_1 :
    (pending 0x00000006#32).engineTurn = true ∧ (pending 0x00000006#32).pend = some 0x00000006#32 ∧
      decode 0x00000006#32 = .error .reservedOpcode := by decide
/-- The first and the last opcode of each reserved range of R75. -/
theorem witness_IllegalWordEffect_2 :
    ∀ op ∈ [0x06, 0x07, 0x0A, 0x0F, 0x12, 0x17, 0x1A, 0x20, 0x27, 0x2E, 0x31, 0xFF],
      op = (BitVec.ofNat 32 op).toNat % 256 ∧ decode (BitVec.ofNat 32 op) = .error .reservedOpcode := by decide

/-- Busy with a command, before its engine step. -/
def busy (op : HostOp) : State := { pending 0x00000123#32 with inputs := [.access .host op], latency := 1 }

theorem witness_CommandHandshake_1 :
    { halted with inputs := [.access .host (.write 0x000#10 .word 0#32)] }.hostNext (.write 0x000#10 .word 0#32) [] ∧
      halted.status.fatal = true := by decide
theorem witness_CommandHandshake_2 :
    (busy (.write 0x000#10 .word 0#32)).hostNext (.write 0x000#10 .word 0#32) [] ∧
      (busy (.write 0x000#10 .word 0#32)).status.fatal = false ∧ (busy (.write 0x000#10 .word 0#32)).status.busy = true := by
  decide
theorem witness_CommandHandshake_3 :
    (program [.write 0x000#10 .word 5#32]).hostNext (.write 0x000#10 .word 5#32) [] ∧
      (program [.write 0x000#10 .word 5#32]).status.fatal = false ∧
      (program [.write 0x000#10 .word 5#32]).status.busy = false := by decide
theorem witness_CommandHandshake_4 :
    (pending 0x00000006#32).engineTurn = true ∧ (pending 0x00000006#32).pend = some 0x00000006#32 := by decide
theorem witness_CommandHandshake_5 :
    (busy (.write 0x020#10 .word 1#32)).hostNext (.write 0x020#10 .word 1#32) [] ∧
      (busy (.write 0x020#10 .word 1#32)).status.busy = true ∧ (1#32).getLsbD 0 = true := by decide

theorem witness_AccessErrorsExactly :
    (program [.write 0x0FC#10 .half 0#32]).hostNext (.write 0x0FC#10 .half 0#32) [] ∧ ¬ LegalAccess 0x0FC#10 .half ∧
      (program [.read 0x100#10 .half]).hostNext (.read 0x100#10 .half) [] ∧ LegalAccess 0x100#10 .half := by decide

theorem witness_BusyAccessesAreViolations :
    (busy .poll).status.busy = true ∧ (busy .poll).status.fatal = false ∧
      (busy (.read 0x008#10 .word)).hostNext (.read 0x008#10 .word) [] ∧ LegalAccess 0x008#10 .word ∧
      (busy (.read 0x3FF#10 .byte)).hostNext (.read 0x3FF#10 .byte) [] ∧ LegalAccess 0x3FF#10 .byte ∧
      (busy (.write 0x020#10 .word 0#32)).hostNext (.write 0x020#10 .word 0#32) [] ∧ LegalAccess 0x020#10 .word ∧
      (busy .poll).hostNext .poll [] ∧ (busy .rdtx).hostNext .rdtx [] := by decide

theorem witness_RegisterReads :
    (program [.read 0x024#10 .word]).hostNext (.read 0x024#10 .word) [] ∧
      (program [.read 0x024#10 .word]).status.busy = false ∧ (0x024#10).toNat < 0x100 ∧ (0x024#10).toNat % 4 = 0 ∧
      (program [.read 0x0FC#10 .word]).hostNext (.read 0x0FC#10 .word) [] ∧ 0x028 ≤ (0x0FC#10).toNat ∧
      (0x0FC#10).toNat < 0x100 ∧ (0x0FC#10).toNat % 4 = 0 ∧
      (busy (.read 0x008#10 .word)).hostNext (.read 0x008#10 .word) [] := by
  decide

/-- The first and the last offset of each window. -/
theorem witness_WindowReads :
    ∀ off ∈ [0x100#10, 0x1FF#10, 0x200#10, 0x2FF#10, 0x300#10, 0x3FF#10],
      (program [.read off .byte]).hostNext (.read off .byte) [] ∧ (program [.read off .byte]).status.busy = false ∧
        0x100 ≤ off.toNat ∧ off.toNat % Width.byte.bytes = 0 := by decide
theorem witness_WindowWrites :
    ∀ off ∈ [0x100#10, 0x1FC#10, 0x200#10, 0x2FC#10, 0x300#10, 0x3FC#10],
      (program [.write off .word 5#32]).hostNext (.write off .word 5#32) [] ∧ (program [.write off .word 5#32]).idle ∧
        0x100 ≤ off.toNat ∧ off.toNat % Width.word.bytes = 0 := by decide

theorem witness_RegisterWrites :
    ∀ off ∈ [0x004#10, 0x008#10, 0x024#10, 0x028#10, 0x0FC#10],
      (program [.write off .word 5#32]).hostNext (.write off .word 5#32) [] ∧ (program [.write off .word 5#32]).idle ∧
        off.toNat < 0x100 ∧ off.toNat % 4 = 0 := by decide

theorem witness_RxlenWrite :
    (program [.write 0x018#10 .word 256#32]).hostNext (.write 0x018#10 .word 256#32) [] ∧
      (program [.write 0x018#10 .word 257#32]).hostNext (.write 0x018#10 .word 257#32) [] ∧
      (program [.write 0x018#10 .word 256#32]).status.busy = false ∧
      (program [.write 0x018#10 .word 256#32]).status.fatal = false ∧ (256#32).toNat ≤ 256 ∧ 256 < (257#32).toNat ∧
      { halted with inputs := [.access .host (.write 0x018#10 .word 3#32)] }.hostNext (.write 0x018#10 .word 3#32) [] ∧
      halted.status.busy = false ∧ halted.status.fatal = true := by decide

theorem witness_SecondHostIsRefused :
    { State.reset with inputs := [.access .other .poll] }.inputs = [.access .other .poll] ∧
      { State.reset with inputs := [.access .other .poll] }.engineTurn = false := by decide

theorem witness_ResetLeavesSpecifiedValues :
    { halted with inputs := [.hardwareReset] }.inputs = [.hardwareReset] ∧
      { halted with inputs := [.hardwareReset] }.engineTurn = false ∧
      (busy (.write 0x020#10 .word 1#32)).hostNext (.write 0x020#10 .word 1#32) [] ∧ (1#32).getLsbD 0 = true ∧
      (busy (.write 0x020#10 .word 2#32)).hostNext (.write 0x020#10 .word 2#32) [] ∧ (2#32).getLsbD 0 = false := by decide

/-- A state with a command in the engine and `poll` to come meets the invariant. -/
theorem busy_poll_inv : (busy .poll).Inv where
  txWf := by decide
  rxWf := by decide
  dataWf := by decide
  pendBusy := by decide
  haltedIdle := by decide
  idleLatency := by decide
  cause := by decide
  causeKnown := by decide
  finfoClear := by decide
  rxlenCap := by decide
  txlenCap := by decide
  txWritten := by decide
  resultLegal := by decide
  pldLegal := by decide

theorem witness_StepKeepsInvariant : (busy .poll).Inv ∧ next (step (busy .poll)) (fun _ => true) = true :=
  ⟨busy_poll_inv, by decide⟩

theorem witness_PollEnds : (busy .poll).Inv ∧ (busy .poll).inputs = .access .host .poll :: [] := ⟨busy_poll_inv, by decide⟩

theorem witness_CmdRunsItsCommand :
    (program (cmdOps (.reqRdHregs 1#8))).idle ∧ (Instr.reqRdHregs 1#8).wf = true ∧
      (program (cmdOps (.reqRdHregs 1#8))).inputs = (cmdOps (.reqRdHregs 1#8)).map (Input.access .host) ++ [] := by decide

theorem witness_LoadsFillTheBuffers :
    (program (ldbufOps .data [0xCD#8, 0x01#8])).idle ∧ [0xCD#8, 0x01#8].length ≤ 256 ∧
      (program (ldbufOps .data [0xCD#8, 0x01#8])).inputs = (ldbufOps .data [0xCD#8, 0x01#8]).map (Input.access .host) ++ [] ∧
      (program (ldrxOps [0x01#8, 0x83#8])).idle ∧ [0x01#8, 0x83#8].length ≤ 256 ∧
      (program (ldrxOps [0x01#8, 0x83#8])).inputs = (ldrxOps [0x01#8, 0x83#8]).map (Input.access .host) ++ [] := by decide

theorem witness_RdtxReadsTheFrame :
    { program [.rdtx] with tx := bufferOf 0 [0xFF#8, 0xFE#8], txlen := 2#9 }.idle ∧
      { program [.rdtx] with tx := bufferOf 0 [0xFF#8, 0xFE#8], txlen := 2#9 }.inputs = .access .host .rdtx :: [] ∧
      { program [.rdtx] with tx := bufferOf 0 [0xFF#8, 0xFE#8], txlen := 2#9 }.tx.holds 0 [0xFF#8, 0xFE#8] ∧
      [0xFF#8, 0xFE#8].length = { program [.rdtx] with tx := bufferOf 0 [0xFF#8, 0xFE#8], txlen := 2#9 }.txlen.toNat ∧
      { program [.rdtx] with tx := bufferOf 0 [0xFF#8, 0xFE#8], txlen := 2#9 }.txlen.toNat ≤ 256 ∧
      [0xFF#8, 0xFE#8][1]? = some 0xFE#8 :=
  ⟨by decide, by decide, holds_bufferOf _, by decide, by decide, by decide⟩

end Sys2Proof.Tests
end

/-! PROOFS. The statements of 10_state.md: the engine step and the command slot, the register layouts, the write sets of
the commands, and the invariant. -/

namespace Sys2Proof.Machine

/-! ## The command slot and the registers of the host bus (10_state.md R22, R28) -/

/-- An allowed 32-bit write of a register goes on to its effect. -/
theorem step_write_register {s : State} {r : Reg} {v : Word} {rest : List Input}
    (h : s.hostNext (.write (regOffset r) .word v) rest) (hm : s.mayWrite (regOffset r) = true) :
    step s = .next ({ s with inputs := rest, latency := s.latency - 1 }.hostWrite (regOffset r) .word v) := by
  rw [step_write h, hm, guardAccess_ok (legalAccess_register r), State.takeInput_eq h.1]

@[simp] theorem State.writeEffect_cmd (s : State) (width : Width) (v : Word) :
    s.writeEffect (regOffset .cmd) width v = s.writeCmd v := by
  simp [State.writeEffect]

@[simp] theorem State.writeEffect_rxlen (s : State) (width : Width) (v : Word) :
    s.writeEffect (regOffset .rxlen) width v = s.writeRxlen v := by
  simp [State.writeEffect]

/-- A register write of a halted block takes its input and does nothing else, but for CTRL (60_exceptions.md R206). -/
theorem step_write_halted {s : State} {r : Reg} {v : Word} {rest : List Input}
    (h : s.hostNext (.write (regOffset r) .word v) rest) (hr : regOffset r ≠ regOffset .ctrl)
    (hf : s.status.fatal = true) : step s = .next { s with inputs := rest, latency := s.latency - 1 } := by
  rw [step_write_register h (State.mayWrite_of_inactive _ (State.halted_engineActive hf)),
    State.hostWrite_halted (by exact hf) hr]

/-- A register write of an idle block has its effect (20_memory.md R59). -/
theorem step_write_idle {s : State} {r : Reg} {v : Word} {rest : List Input}
    (h : s.hostNext (.write (regOffset r) .word v) rest) (hb : s.status.busy = false) (hf : s.status.fatal = false) :
    step s = .next ({ s with inputs := rest, latency := s.latency - 1 }.writeEffect (regOffset r) .word v) := by
  rw [step_write_register h (State.mayWrite_of_inactive _ (State.idle_engineActive hb)),
    State.hostWrite_running (by exact hf)]

/-- Settles O43, by the three cases of a write of RXLEN: halted, in range, out of range. -/
theorem rxlenWrite : Obligations.RxlenWrite := by
  intro s v rest h hb
  have h : s.hostNext (.write (regOffset .rxlen) .word v) rest := h
  refine ⟨step_write_halted h (by decide), fun hf hv => ?_, fun hf hv => ?_⟩
  · refine ⟨v.setWidth 9, by rw [BitVec.toNat_setWidth]; omega, ?_⟩
    rw [step_write_idle h hb hf, State.writeEffect_rxlen, State.writeRxlen_ok hv]
  · rw [step_write_idle h hb hf, State.writeEffect_rxlen, State.writeRxlen_fatal hv]

/-- Settles O33: the engine's step on a word that decodes is `exec` followed by `State.retire`. -/
theorem stepRunsPendingCommand : Obligations.StepRunsPendingCommand := by
  intro s w i ht hp hd
  rw [step_engine ht, engineStep_command hp hd]
  rfl

/-! ## Register layouts (10_state.md R24, R25, R29) -/

/-- Settles O39: each field is the part of its word's concatenation at its place. The widths of a concatenation are sums
and not literals, which simp's index would not match (`-index`). -/
theorem registerLayouts : Obligations.RegisterLayouts := by
  refine ⟨fun st => ?_, fun r => ?_, by decide, fun p => ?_⟩
  · simp -index only [statusWord, BitVec.getLsbD_append, BitVec.extractLsb'_append_eq_of_le,
      BitVec.extractLsb'_append_eq_right, Nat.reduceLeDiff, Nat.reduceSub]
    simp
  · simp -index only [resultWord, BitVec.getLsbD_append, BitVec.extractLsb'_append_eq_of_le,
      BitVec.extractLsb'_append_eq_right, Nat.reduceLeDiff, Nat.reduceSub]
    simp
  · simp -index only [pldWord, BitVec.extractLsb'_append_eq_of_le, BitVec.extractLsb'_append_eq_right,
      Nat.reduceLeDiff, Nat.reduceSub]
    simp

/-! ## What a command can do (10_state.md R36) -/

/-- TX in canonical form, with the frame of `n` bytes at its start inside the buffer and written. -/
structure Memory.HasFrame (m : Memory) (n : Len) : Prop where
  wf : m.wf = true
  cap : n.toNat ≤ 256
  written : ∀ k, k < n.toNat → (m.lookup k).isSome = true

/-- Appending bytes that fit keeps a frame a frame (40_frame_codec.md R110). -/
theorem Memory.HasFrame.append {m : Memory} {n : Len} {bs : List Byte} (h : m.HasFrame n)
    (hfit : n.toNat + bs.length ≤ 256) : (m.writeAll n.toNat bs).HasFrame (n + BitVec.ofNat 9 bs.length) where
  wf := Memory.wf_writeAll h.wf hfit
  cap := by rw [len_add hfit]; exact hfit
  written k hk := by
    rw [len_add hfit] at hk
    refine Memory.isSome_lookup_writeAll m _ bs k ?_
    by_cases hin : k < n.toNat
    · exact .inr (h.written k hin)
    · exact .inl (by omega)

/-- A frame written from index 0 on is a frame, whatever TX held. -/
theorem Memory.HasFrame.ofWf {m : Memory} {bs : List Byte} (h : m.wf = true) (hfit : bs.length ≤ 256) :
    (m.writeAll 0 bs).HasFrame (BitVec.ofNat 9 bs.length) := by
  have hempty : m.HasFrame 0#9 := ⟨h, by decide, by simp⟩
  simpa using hempty.append (bs := bs) (by simpa using hfit)

/-- OK may come with either BIT (10_state.md R25). -/
theorem legal_ok (b : Bool) : Result.legal { kind := kindCode .ok, exc := 0#8, bit := b } := by
  cases b <;> decide

/-- EXCEPTION may come with any EXC (10_state.md R25). -/
theorem legal_exception (e : Byte) : Result.legal { kind := kindCode .exception, exc := e, bit := false } :=
  ⟨(by decide : (kindCode .exception).toNat ≤ 5), fun _ => rfl, nofun⟩

/-- The four ways a command completes without a fault, each with what it may write. -/
inductive Completion (i : Instr) (s : State) : State → Prop
  /-- CRC and RESULT. -/
  | record (c : Half) (d : Nat) (k : ResultKind) (b : Bool) (hc : writesCrc i = false → c = s.crc)
      (hr : Result.legal { kind := kindCode k, exc := 0#8, bit := b }) :
      Completion i s ({ s with crc := c, draws := d }.setResult k 0#8 b)
  /-- A frame in TX, CRC and RESULT. -/
  | frame (m : Memory) (n : Len) (c : Half) (d : Nat) (hi : writesTx i = true) (hc : writesCrc i = false → c = s.crc)
      (hm : s.tx.HasFrame s.txlen → m.HasFrame n) :
      Completion i s ({ s with tx := m, txlen := n, crc := c, draws := d }.setResult .ok 0#8 false)
  /-- A byte of DATA, and RESULT. -/
  | bit (a : Nat) (x : Byte) (d : Nat) (hi : writesData i = true) (ha : a < 256) :
      Completion i s ({ s with data := s.data.write a x, draws := d }.setResult .ok 0#8 false)
  /-- PLD, CRC and RESULT. -/
  | response (c : Half) (d : Nat) (n : Len) (o : Byte) (k : ResultKind) (e : Byte) (hi : writesPld i = true)
      (hc : writesCrc i = true) (hp : s.rxlen.toNat ≤ 256 → Pld.legal { plen := n, poff := o })
      (hr : Result.legal { kind := kindCode k, exc := e, bit := false }) :
      Completion i s ({ s with crc := c, draws := d }.finishResponse n o k e)

/-- An outcome of command `i` in state `s` that completes, or raises a fatal fault with the command's own word
(60_exceptions.md R202). -/
def CompletesOrLatches (i : Instr) (s : State) (o : Host.Outcome State Fault Refusal) : Prop :=
  ∃ t, o = .next t ∧ (Completion i s t ∨ mayFault i = true ∧ ∃ cause, t = s.raiseFatal cause (encode i))

theorem Completion.outcome {i : Instr} {s t : State} (h : Completion i s t) : CompletesOrLatches i s (.next t) :=
  ⟨t, rfl, .inl h⟩

/-- A command that records OK and may write CRC. -/
theorem Completion.recordOk {i : Instr} {s : State} (c : Half) (d : Nat) (b : Bool)
    (hc : writesCrc i = false → c = s.crc) : Completion i s ({ s with crc := c, draws := d }.setResult .ok 0#8 b) :=
  .record c d .ok b hc (legal_ok b)

/-- A command that leaves a frame written from index 0 on. -/
theorem Completion.framed {i : Instr} {s : State} {body : List Byte} {c : Half} (d : Nat) (hi : writesTx i = true)
    (hc : writesCrc i = false → c = s.crc) (hfit : body.length ≤ 256) :
    Completion i s ({ { s with draws := d }.framed body with crc := c }.setResult .ok 0#8 false) :=
  .frame _ _ c d hi hc fun h => .ofWf h.wf hfit

theorem completesOrLatches_fatal {i : Instr} (s : State) (cause : FatalCause) (h : mayFault i = true) :
    CompletesOrLatches i s (.next (s.raiseFatal cause (encode i))) :=
  ⟨_, rfl, .inr ⟨h, cause, rfl⟩⟩

/-- A pack command: where its bytes `bs` fit it appends them, and else it fails with TX_CAP. -/
theorem finishPack_append {i : Instr} {s : State} {r : Except FatalCause State} {bs : List Byte} {c : Half} {d : Nat}
    (hi : writesTx i = true) (hf : mayFault i = true) (hc : writesCrc i = false → c = s.crc)
    (hok : s.txlen.toNat + bs.length ≤ 256 →
      r = .ok { s with
        tx := s.tx.writeAll s.txlen.toNat bs, txlen := s.txlen + BitVec.ofNat 9 bs.length, crc := c, draws := d })
    (herr : 256 < s.txlen.toNat + bs.length → r = .error .txCap) :
    CompletesOrLatches i s (finishPack (encode i) s r) := by
  by_cases hfit : s.txlen.toNat + bs.length ≤ 256
  · rw [hok hfit, finishPack_ok]
    exact (Completion.frame _ _ c d hi hc fun h => h.append hfit).outcome
  · rw [herr (Nat.lt_of_not_le hfit), finishPack_error]
    exact completesOrLatches_fatal s .txCap hf

/-- The requests of 43_request_builders.md R161 to R166. -/
theorem finishPack_twoWordRequest {i : Instr} (sa fc : Byte) (w : Half) (s : State) (hi : writesTx i = true)
    (hc : writesCrc i = true) : CompletesOrLatches i s (finishPack (encode i) s (twoWordRequest sa fc w s)) := by
  rw [twoWordRequest_ok, finishPack_ok]
  exact (Completion.framed s.draws hi (by simp [hc]) (by simp [withCrc, twoWordBody, wordBytes])).outcome

/-- The requests of 43_request_builders.md R167 and R168. -/
theorem finishPack_dataRequest {i : Instr} (sa fc : Byte) (n : Nat) (s : State) (hi : writesTx i = true)
    (hc : writesCrc i = true) (hf : mayFault i = true) :
    CompletesOrLatches i s (finishPack (encode i) s (dataRequest sa fc n s)) := by
  by_cases hfit : 9 + n ≤ 256
  · rw [dataRequest_ok hfit, finishPack_ok]
    refine (Completion.framed _ hi (by simp [hc]) ?_).outcome
    simp [withCrc, dataBody, wordBytes]
    omega
  · rw [dataRequest_error (by omega), finishPack_error]
    exact completesOrLatches_fatal s .txCap hf

/-- BIDX / 8 is an index of DATA. -/
theorem byteIndex_lt (bidx : BitIndex) : byteIndex bidx < 256 := by
  have := bidx.isLt
  simp only [byteIndex]
  omega

theorem execBitSet_outcome (bidx : BitIndex) (cnt : Len) (v : Bool) (s : State) :
    CompletesOrLatches (.bitSet bidx cnt v) s (execBitSet bidx cnt v s) := by
  simp only [execBitSet]
  split
  · exact completesOrLatches_fatal s .bitRange rfl
  · exact (Completion.bit _ _ _ rfl (byteIndex_lt bidx)).outcome

theorem execBitGet_outcome (bidx : BitIndex) (cnt : Len) (s : State) :
    CompletesOrLatches (.bitGet bidx cnt) s (execBitGet bidx cnt s) := by
  simp only [execBitGet]
  split
  · exact completesOrLatches_fatal s .bitRange rfl
  · exact (Completion.recordOk s.crc _ _ fun _ => rfl).outcome

theorem execValCrc_outcome (s : State) : CompletesOrLatches .valCrc s (execValCrc s) := by
  simp only [execValCrc]
  split
  · exact (Completion.record s.crc s.draws .malformed false (fun _ => rfl) (by decide)).outcome
  · split
    · exact (Completion.recordOk (i := .valCrc) _ _ _ nofun).outcome
    · exact (Completion.record (i := .valCrc) _ _ .invalidCrc16 false nofun (by decide)).outcome

/-- VAL_RESP where it accepts no payload: PLD is 0, and EXC may be other than 0 with EXCEPTION alone. -/
theorem Completion.rejectedResponse {sa fc : Byte} {s : State} (c : Half) (d : Nat) {k : ResultKind} {e : Byte}
    (hr : Result.legal { kind := kindCode k, exc := e, bit := false }) :
    Completion (.valResp sa fc) s ({ s with crc := c, draws := d }.finishResponse 0#9 0#8 k e) :=
  .response c d 0#9 0#8 k e rfl rfl (fun _ => .inl ⟨rfl, rfl⟩) hr

/-- Steps 3 and 4 of VAL_RESP on a frame of four bytes or more (42_validator.md R142). -/
theorem checkResponse_completion (sa fc : Byte) (s : State) (c : Half) (d : Nat) (h : 4 ≤ s.rxlen.toNat) :
    Completion (.valResp sa fc) s (checkResponse sa fc { s with crc := c, draws := d }) := by
  obtain ⟨a, f, e, -, -, -, d', hcheck⟩ := checkResponse_cases sa fc { s with crc := c, draws := d }
  rw [hcheck]
  split
  · exact .rejectedResponse c d' (by decide)
  split
  · refine .response c d' (s.rxlen - 4#9) 2#8 .ok 0#8 rfl rfl (fun hcap => .inr ⟨?_, rfl⟩) (by decide)
    have hsub : (s.rxlen - 4#9).toNat = s.rxlen.toNat - 4 := BitVec.toNat_sub_of_le (BitVec.le_def.2 h)
    rw [hsub]
    omega
  split
  · exact .rejectedResponse c d' (legal_exception e)
  · exact .rejectedResponse c d' (by decide)

theorem execValResp_outcome (sa fc : Byte) (s : State) :
    CompletesOrLatches (.valResp sa fc) s (execValResp sa fc s) := by
  by_cases h : 4 ≤ s.rxlen.toNat
  · rw [execValResp_long h]
    split
    · exact (checkResponse_completion sa fc s _ _ h).outcome
    · exact (Completion.rejectedResponse _ _ (by decide)).outcome
  · simp only [execValResp, Config.minFrame, Nat.lt_of_not_le h, if_true]
    exact (Completion.rejectedResponse s.crc s.draws (by decide)).outcome

/-- Everything a command can do. -/
theorem exec_outcome (i : Instr) (s : State) : CompletesOrLatches i s (exec i s) := by
  cases i with
  | nop => exact (Completion.recordOk s.crc s.draws false fun _ => rfl).outcome
  | beginPack sa fc =>
    exact (Completion.framed (body := [sa, fc]) s.draws rfl (fun _ => rfl) (by simp)).outcome
  | packByte imm8 =>
    exact finishPack_append (bs := [imm8]) rfl rfl (fun _ => rfl) (fun h => appendBytes_ok h)
      fun h => appendBytes_error h
  | packWord imm16 =>
    exact finishPack_append (bs := wordBytes imm16) rfl rfl (fun _ => rfl) (fun h => packWordSteps_ok h)
      fun h => packWordSteps_error h
  | packBytes n9 =>
    refine finishPack_append (bs := dataRead s n9.toNat) (d := (s.data.readSeq 0 n9.toNat s.draws).2) rfl rfl
      (fun _ => rfl) (fun h => ?_) fun h => ?_
    · rw [dataRead_length] at h ⊢
      exact packBytesSteps_ok h
    · exact packBytesSteps_error (by rwa [dataRead_length] at h)
  | endPack =>
    exact finishPack_append (bs := [crcLow (crc16 (frameRead s)), crcHigh (crc16 (frameRead s))]) rfl rfl nofun
      (fun h => endPackSteps_ok h) fun h => endPackSteps_error h
  | crcInit => exact (Completion.recordOk (i := .crcInit) _ s.draws false nofun).outcome
  | crcFeed imm8 => exact (Completion.recordOk (i := .crcFeed imm8) _ s.draws false nofun).outcome
  | valCrc => exact execValCrc_outcome s
  | valResp sa fc => exact execValResp_outcome sa fc s
  | bitSet bidx cnt v => exact execBitSet_outcome bidx cnt v s
  | bitGet bidx cnt => exact execBitGet_outcome bidx cnt s
  | reqRdCoils sa => exact finishPack_twoWordRequest sa _ _ s rfl rfl
  | reqRdDisc sa => exact finishPack_twoWordRequest sa _ _ s rfl rfl
  | reqRdHregs sa => exact finishPack_twoWordRequest sa _ _ s rfl rfl
  | reqRdIregs sa => exact finishPack_twoWordRequest sa _ _ s rfl rfl
  | reqWrCoil sa v => exact finishPack_twoWordRequest sa _ _ s rfl rfl
  | reqWrReg sa => exact finishPack_twoWordRequest sa _ _ s rfl rfl
  | reqWrCoils sa => exact finishPack_dataRequest sa _ _ s rfl rfl rfl
  | reqWrRegs sa => exact finishPack_dataRequest sa _ _ s rfl rfl rfl

/-- Settles O29, by the four ways a command completes; a fatal fault leaves FATAL 1. -/
theorem commandWriteSets : Obligations.CommandWriteSets := by
  intro i s t h hfatal
  obtain ⟨u, hu, hcase⟩ := exec_outcome i s
  cases hu.symm.trans h
  obtain hdone | ⟨-, cause, rfl⟩ := hcase
  · cases hdone with
    | record c d k b hc hr => simpa using hc
    | frame m n c d hi hc hm => simpa [hi] using hc
    | bit a x d hi ha => simp [hi]
    | response c d n o k e hi hc hp hr => simp [hi, hc]
  · simp at hfatal

/-! ## ARG (10_state.md R30) -/

/-- The state with another value in ARG. -/
def State.withArg (s : State) (a : Word) : State := { s with arg := a }

/-! Each operation below reads no field but those `withArg` keeps, so its branches agree one by one. -/

theorem finishPack_withArg (w : Word) (s : State) (a : Word) (r : Except FatalCause State) :
    finishPack w (s.withArg a) (r.map (State.withArg · a)) = afterNext (State.withArg · a) (finishPack w s r) := by
  cases r <;> rfl

theorem appendBytes_withArg (bs : List Byte) (s : State) (a : Word) :
    appendBytes bs (s.withArg a) = (appendBytes bs s).map (State.withArg · a) := by
  rw [appendBytes, appendBytes, apply_ite (Except.map _)]
  rfl

theorem packBytesSteps_withArg (n : Nat) (s : State) (a : Word) :
    packBytesSteps n (s.withArg a) = (packBytesSteps n s).map (State.withArg · a) := by
  rw [packBytesSteps, packBytesSteps, apply_ite (Except.map _)]
  simp only [← appendBytes_withArg]
  rfl

theorem endPackSteps_withArg (s : State) (a : Word) :
    endPackSteps (s.withArg a) = (endPackSteps s).map (State.withArg · a) := by
  by_cases h : s.txlen.toNat + 2 ≤ 256
  · rw [endPackSteps_ok h, endPackSteps_ok (s := s.withArg a) h]
    rfl
  · rw [endPackSteps_error (Nat.lt_of_not_le h), endPackSteps_error (s := s.withArg a) (Nat.lt_of_not_le h)]
    rfl

theorem checkResponse_withArg (sa fc : Byte) (s : State) (a : Word) :
    checkResponse sa fc (s.withArg a) = (checkResponse sa fc s).withArg a := by
  simp only [checkResponse, apply_ite (State.withArg · a)]
  rfl

theorem execValCrc_withArg (s : State) (a : Word) :
    execValCrc (s.withArg a) = afterNext (State.withArg · a) (execValCrc s) := by
  simp only [execValCrc, apply_ite (afterNext _)]
  rfl

theorem execValResp_withArg (sa fc : Byte) (s : State) (a : Word) :
    execValResp sa fc (s.withArg a) = afterNext (State.withArg · a) (execValResp sa fc s) := by
  simp only [execValResp, apply_ite (afterNext _), afterNext_next, ← checkResponse_withArg]
  rfl

theorem execBitSet_withArg (bidx : BitIndex) (cnt : Len) (v : Bool) (s : State) (a : Word) :
    execBitSet bidx cnt v (s.withArg a) = afterNext (State.withArg · a) (execBitSet bidx cnt v s) := by
  rw [execBitSet, execBitSet, apply_ite (afterNext _)]
  rfl

theorem execBitGet_withArg (bidx : BitIndex) (cnt : Len) (s : State) (a : Word) :
    execBitGet bidx cnt (s.withArg a) = afterNext (State.withArg · a) (execBitGet bidx cnt s) := by
  rw [execBitGet, execBitGet, apply_ite (afterNext _)]
  rfl

/-- A command that is not a request builder does the same whatever ARG holds. -/
theorem exec_withArg (i : Instr) (s : State) (a : Word) (h : isRequest i = false) :
    exec i (s.withArg a) = afterNext (State.withArg · a) (exec i s) := by
  cases i with
  | nop => rfl
  | beginPack sa fc => rfl
  | packByte imm8 => simp only [exec, execPackByte, append, appendBytes_withArg, finishPack_withArg]
  | packWord imm16 => simp only [exec, execPackWord, packWordSteps, appendBytes_withArg, finishPack_withArg]
  | packBytes n9 => simp only [exec, execPackBytes, packBytesSteps_withArg, finishPack_withArg]
  | endPack => simp only [exec, execEndPack, endPackSteps_withArg, finishPack_withArg]
  | crcInit => rfl
  | crcFeed imm8 => rfl
  | valCrc => exact execValCrc_withArg s a
  | valResp sa fc => exact execValResp_withArg sa fc s a
  | bitSet bidx cnt v => exact execBitSet_withArg bidx cnt v s a
  | bitGet bidx cnt => exact execBitGet_withArg bidx cnt s a
  | _ => cases h

/-- Settles O30, command by command: none but the request builders reads ARG. -/
theorem onlyRequestsReadArg : Obligations.OnlyRequestsReadArg :=
  fun i s a h => exec_withArg i s a h

/-! ## The command handshake (10_state.md R22) -/

/-- Every word is executed to a next state. -/
theorem executeWord_next (w : Word) (s : State) : ∃ u, executeWord w s = .next u := by
  unfold executeWord
  split
  · obtain ⟨u, hu, -⟩ := exec_outcome _ s
    exact ⟨u, hu⟩
  · exact ⟨_, rfl⟩

/-- A CTRL write with bit 0 set resets the block, whatever BUSY and FATAL are (10_state.md R32). -/
theorem step_softReset {s : State} {v : Word} {rest : List Input}
    (h : s.hostNext (.write (regOffset .ctrl) .word v) rest)
    (hv : v.getLsbD 0 = true) : ∃ t, step s = .next t ∧ t.pend = none ∧ t.afterReset := by
  rw [step_write_register h (State.mayWrite_iff.2 (.inr rfl)), State.hostWrite_ctrl, State.writeCtrl_reset hv]
  exact ⟨_, rfl, rfl, State.resetBlock_afterReset _⟩

/-- Settles O35: the CMD write by FATAL and BUSY, the engine step, and the soft reset. -/
theorem commandHandshake : Obligations.CommandHandshake := by
  refine ⟨fun s v rest h => ?_, fun s w ht hp => ?_, fun s v rest h _ hv => step_softReset h hv⟩
  · have h : s.hostNext (.write (regOffset .cmd) .word v) rest := h
    refine ⟨step_write_halted h (by decide), fun hf hb => ?_, fun hf hb => ?_⟩
    · rw [step_write h, State.mayWrite_active (State.engineActive_iff.2 ⟨hb, hf⟩) (by decide),
        guardAccess_violation (legalAccess_register .cmd)]
    · refine ⟨_, step_write_idle h hb hf, ?_⟩
      rw [State.writeEffect_cmd]
      rfl
  · obtain ⟨u, hu⟩ := executeWord_next w s
    refine ⟨(State.engineActive_iff.1 (State.engineTurn_active ht)).1, u, hu, ?_⟩
    simp only [step_engine ht, engineStep, hp, hu]
    rfl

/-! ## The invariant (10_state.md R35) -/

/-- The frame in TX while FATAL = 0. -/
theorem State.Inv.hasFrame {s : State} (h : s.Inv) (hf : s.status.fatal = false) : s.tx.HasFrame s.txlen :=
  ⟨h.txWf, h.txlenCap hf, h.txWritten hf⟩

/-- Where no command is in the engine, BUSY = 0. -/
theorem State.Inv.idle_of_inactive {s : State} (h : s.Inv) (ha : s.engineActive = false) : s.status.busy = false := by
  cases hb : s.status.busy with
  | false => rfl
  | true =>
    cases hf : s.status.fatal with
    | false => simp [State.engineActive, hb, hf] at ha
    | true => rw [h.haltedIdle hf] at hb; cases hb

/-- A reset leaves the invariant, from every state. -/
theorem State.resetBlock_inv (s : State) : s.resetBlock.Inv where
  txWf := rfl
  rxWf := rfl
  dataWf := rfl
  pendBusy := rfl
  haltedIdle := nofun
  idleLatency _ := rfl
  cause := by simp
  causeKnown := by simp
  finfoClear _ := rfl
  rxlenCap := by simp
  txlenCap _ := by simp
  txWritten _ := by simp
  resultLegal _ := (by decide : State.reset.result.legal)
  pldLegal _ := .inl ⟨rfl, rfl⟩

/-- Settles O46: the reset state is what a reset of it leaves. -/
theorem resetMeetsInvariant : Obligations.ResetMeetsInvariant := State.resetBlock_inv State.reset

/-! The engine step. -/

/-- A fatal fault of a block that is not busy (60_exceptions.md R203, R205). -/
theorem State.Inv.raiseFatal {s : State} (h : s.Inv) (hb : s.status.busy = false) (cause : FatalCause) (info : Word) :
    (s.raiseFatal cause info).Inv :=
  { h with
    txWf := rfl
    dataWf := rfl
    haltedIdle := fun _ => hb
    cause := by cases cause <;> simp [causeCode]
    causeKnown := by cases cause <;> simp [causeCode]
    finfoClear := nofun
    txlenCap := nofun
    txWritten := nofun
    resultLegal := nofun
    pldLegal := nofun }

/-- The end of the engine step. -/
theorem State.Inv.retire {s : State} (h : s.Inv) : s.retire.Inv :=
  { h with pendBusy := rfl, haltedIdle := fun _ => rfl, idleLatency := fun _ => rfl }

theorem State.Inv.setResult {s : State} (h : s.Inv) {k : ResultKind} {e : Byte} {b : Bool}
    (hr : Result.legal { kind := kindCode k, exc := e, bit := b }) : (s.setResult k e b).Inv :=
  { h with resultLegal := fun _ => hr }

/-- A command that completes keeps the invariant. -/
theorem State.Inv.completion {i : Instr} {s t : State} (h : s.Inv) (hf : s.status.fatal = false)
    (hdone : Completion i s t) : t.Inv := by
  cases hdone with
  | record c d k b hc hr => exact { h with resultLegal := fun _ => hr }
  | frame m n c d hi hc hm =>
    obtain ⟨hwf, hcap, hwritten⟩ := hm (h.hasFrame hf)
    exact { h with
      txWf := hwf
      txlenCap := fun _ => hcap
      txWritten := fun _ => hwritten
      resultLegal := fun _ => legal_ok false }
  | bit a x d hi ha =>
    exact { h with dataWf := Memory.wf_write x h.dataWf ha, resultLegal := fun _ => legal_ok false }
  | response c d n o k e hi hc hp hr => exact { h with resultLegal := fun _ => hr, pldLegal := fun _ => hp h.rxlenCap }

/-- A command keeps the invariant, at the end of its engine step. -/
theorem exec_retire_inv {i : Instr} {s : State} (h : s.Inv) (hf : s.status.fatal = false) :
    ∃ t, exec i s = .next t ∧ t.retire.Inv := by
  obtain ⟨t, ht, hdone | ⟨-, cause, rfl⟩⟩ := exec_outcome i s
  · exact ⟨t, ht, (h.completion hf hdone).retire⟩
  · exact ⟨_, ht, h.retire.raiseFatal rfl cause (encode i)⟩

/-- The engine step keeps the invariant. -/
theorem engineStep_inv {s t : State} (h : s.Inv) (ha : s.engineActive = true) (ht : engineStep s = .next t) :
    t.Inv := by
  cases hp : s.pend with
  | none =>
    simp only [engineStep, hp] at ht
    cases ht
    exact h.retire
  | some w =>
    cases hd : decode w with
    | ok i =>
      obtain ⟨u, hu, hinv⟩ := exec_retire_inv (i := i) h (State.engineActive_iff.1 ha).2
      rw [engineStep_command hp hd, hu] at ht
      cases ht
      exact hinv
    | error e =>
      rw [engineStep_illegal hp hd] at ht
      cases ht
      exact (h.setResult (by decide)).retire

/-! The host's operations. -/

theorem State.Inv.takeInput {s : State} (h : s.Inv) : s.takeInput.Inv :=
  { h with idleLatency := fun hb => by rw [State.takeInput_latency, h.idleLatency hb] }

theorem State.Inv.hostRead {s : State} (h : s.Inv) (off : Offset) (width : Width) (ops : List HostOp) :
    ((s.hostRead off width).pushOps ops).Inv :=
  { h with }

theorem State.Inv.writeCmd {s : State} (h : s.Inv) (hf : s.status.fatal = false) (v : Word) : (s.writeCmd v).Inv :=
  { h with
    pendBusy := rfl
    haltedIdle := fun hfatal => absurd (hf.symm.trans hfatal) Bool.false_ne_true
    idleLatency := nofun }

theorem State.Inv.writeCtrl {s : State} (h : s.Inv) (v : Word) : (s.writeCtrl v).Inv := by
  rw [State.writeCtrl]
  split
  · exact State.resetBlock_inv s
  · exact h

theorem State.Inv.writeRxlen {s : State} (h : s.Inv) (hb : s.status.busy = false) (v : Word) :
    (s.writeRxlen v).Inv := by
  by_cases hv : v.toNat ≤ 256
  · rw [State.writeRxlen_ok hv]
    refine { h with rxlenCap := ?_ }
    rw [BitVec.toNat_setWidth]
    omega
  · rw [State.writeRxlen_fatal (Nat.lt_of_not_le hv)]
    exact h.raiseFatal hb .rxCap v

/-- The effect of a legal write on an idle block keeps the invariant. -/
theorem State.Inv.writeEffect {s : State} (h : s.Inv) (hi : s.idle) {off : Offset} {width : Width}
    (hl : LegalAccess off width) (v : Word) : (s.writeEffect off width v).Inv := by
  obtain ⟨hb, hf⟩ := hi
  cases hr : regionOf off with
  | reg r =>
    simp only [State.writeEffect, hr]
    cases r with
    | cmd => exact h.writeCmd hf v
    | arg => exact { h with }
    | rxlen => exact h.writeRxlen hb v
    | ctrl => exact h.writeCtrl v
    | _ => exact h
  | reserved =>
    simp only [State.writeEffect, hr]
    exact h
  | window b i =>
    have hfit : i + (leBytes width.bytes v).length ≤ 256 := by simpa using legalAccess_window hl hr
    simp only [State.writeEffect, hr]
    cases b with
    | tx => exact h
    | rx => exact { h with rxWf := Memory.wf_writeAll h.rxWf hfit }
    | data => exact { h with dataWf := Memory.wf_writeAll h.dataWf hfit }

/-- A write that the host protocol allows keeps the invariant: it is a CTRL write, or the block is halted or idle. -/
theorem State.Inv.hostWrite {s : State} (h : s.Inv) {off : Offset} {width : Width} (hl : LegalAccess off width)
    (hm : s.mayWrite off = true) (v : Word) : (s.hostWrite off width v).Inv := by
  by_cases hc : off = regOffset .ctrl
  · rw [hc, State.hostWrite_ctrl]
    exact h.writeCtrl v
  have hb : s.status.busy = false := h.idle_of_inactive ((State.mayWrite_iff.1 hm).resolve_right hc)
  cases hf : s.status.fatal with
  | true => rwa [State.hostWrite_halted hf hc]
  | false =>
    rw [State.hostWrite_running hf]
    exact h.writeEffect ⟨hb, hf⟩ hl v

theorem inputStep_inv {i : Input} {s t : State} (h : s.Inv) (ht : inputStep i s = .next t) : t.Inv := by
  obtain ⟨-, rfl⟩ | ⟨op, -, hop⟩ := inputStep_next ht
  · exact State.resetBlock_inv s
  · obtain ⟨off, width, v, -, hl, hm, rfl⟩ | ⟨off, width, ops, -, -, rfl⟩ := hostStep_next hop
    · exact h.hostWrite hl hm v
    · exact h.hostRead off width ops

/-- Settles O47, by who moves: the engine, nobody, or the host. -/
theorem stepKeepsInvariant : Obligations.StepKeepsInvariant := by
  intro s t h hstep
  obtain ⟨hturn, ht⟩ | ⟨-, -, rfl⟩ | ⟨i, rest, -, -, ht⟩ := step_next hstep
  · exact engineStep_inv h (State.engineTurn_active hturn) ht
  · exact h
  · exact inputStep_inv h.takeInput ht

end Sys2Proof.Machine

/-! PROOFS. The statements of 20_memory.md: which accesses the bus takes, and what reads and writes of the registers and of
the windows do. -/

namespace Sys2Proof.Machine

/-! ## Legal accesses and agents (20_memory.md R52, R53, R63) -/

/-- The guard reports an access error exactly for an illegal access, whatever the host protocol says of it. -/
theorem guardAccess_accessError_iff {off : Offset} {width : Width} {allowed : Bool} {t : State} :
    guardAccess off width allowed t = .fault (.hostAccessError off width) ↔ ¬ LegalAccess off width := by
  refine ⟨fun h hl => ?_, guardAccess_illegal⟩
  cases allowed with
  | true => rw [guardAccess_ok hl] at h; cases h
  | false => rw [guardAccess_violation hl] at h; cases h

/-- Settles O36: a read and a write both go through the guard. -/
theorem accessErrorsExactly : Obligations.AccessErrorsExactly := by
  rintro s off width op rest h (rfl | ⟨v, rfl⟩)
  · rw [step_read h]
    exact guardAccess_accessError_iff
  · rw [step_write h]
    exact guardAccess_accessError_iff

/-- Settles O44: the step takes the input, and an input of another agent is refused. -/
theorem secondHostIsRefused : Obligations.SecondHostIsRefused := by
  intro s op rest h ht
  rw [step_input h ht]
  rfl

/-- A read that is legal and allowed goes on to `hostRead`. -/
theorem step_read_legal {s : State} {off : Offset} {width : Width} {rest : List Input}
    (h : s.hostNext (.read off width) rest) (hl : LegalAccess off width) (hm : s.mayRead off = true) :
    step s = .next ({ s with inputs := rest, latency := s.latency - 1 }.hostRead off width) := by
  rw [step_read h, hm, guardAccess_ok hl, State.takeInput_eq h.1]

/-- A legal write of an idle block has its effect (20_memory.md R59). -/
theorem step_write_legal {s : State} {off : Offset} {width : Width} {v : Word} {rest : List Input}
    (h : s.hostNext (.write off width v) rest) (hl : LegalAccess off width) (hi : s.idle) :
    step s = .next ({ s with inputs := rest, latency := s.latency - 1 }.writeEffect off width v) := by
  obtain ⟨hb, hf⟩ := hi
  rw [step_write h, State.mayWrite_of_inactive _ (State.idle_engineActive hb), guardAccess_ok hl,
    State.takeInput_eq h.1, State.hostWrite_running (by exact hf)]

/-! ## The register region (20_memory.md R58, R59) -/

/-- An aligned 32-bit access of the register region is legal. -/
theorem legalAccess_low {off : Offset} (hlow : off.toNat < 0x100) (halign : off.toNat % 4 = 0) :
    LegalAccess off .word :=
  ⟨fun _ => ⟨rfl, halign⟩, fun hhigh => absurd hlow (Nat.not_lt.2 hhigh)⟩

/-- The registers lie below 0x028 (10_state.md R23). -/
theorem regOffset_lt (r : Reg) : (regOffset r).toNat < 0x028 := by cases r <;> decide

/-- An offset of the register region is a register's, or reserved. -/
theorem regOffset_or_reserved {off : Offset} (hlow : off.toNat < 0x100) :
    (∃ r, off = regOffset r) ∨ regionOf off = .reserved := by
  cases hr : regionOf off with
  | reg r => exact .inl ⟨r, regionOf_eq_reg.1 hr⟩
  | reserved => exact .inr rfl
  | window b i => exact absurd hlow (Nat.not_lt.2 (regionOf_window hr).1)

/-- A read of the register region draws nothing. -/
theorem State.hostRead_low {s : State} {off : Offset} {width : Width} (hlow : off.toNat < 0x100) :
    s.hostRead off width = { s with rdata := some (s.busRead off width).1 } := by
  have hdraws : (s.busRead off width).2 = s.draws := by
    obtain ⟨r, rfl⟩ | hr := regOffset_or_reserved hlow
    · rw [State.busRead_reg (regionOf_regOffset r)]
    · rw [State.busRead_reserved hr]
  rw [State.hostRead, hdraws]

/-- The registers, in the order of their offsets. -/
def registers : List Reg := [.cmd, .arg, .status, .result, .crc, .txlen, .rxlen, .pld, .ctrl, .finfo]

/-- Settles O38: the table of the statement maps each register to its offset and `State.regValue`, and an offset from
0x028 on is reserved. -/
theorem registerReads : Obligations.RegisterReads := by
  intro s off rest h hbusy hlow halign
  refine ⟨(s.busRead off .word).1, ?_, fun x hx => ?_, fun hhigh => ?_⟩
  · rw [step_read_legal h (legalAccess_low hlow halign) (State.mayRead_iff.2 (hbusy.imp_left State.idle_engineActive)),
      State.hostRead_low hlow]
    rfl
  · have hx : (off, x) ∈ registers.map fun r => (regOffset r, s.regValue r) := hx
    obtain ⟨r, -, hr⟩ := List.mem_map.1 hx
    cases hr
    rw [State.busRead_reg (regionOf_regOffset r)]
  · obtain ⟨r, rfl⟩ | hr := regOffset_or_reserved hlow
    · exact absurd (regOffset_lt r) (Nat.not_lt.2 hhigh)
    · rw [State.busRead_reserved hr]

@[simp] theorem State.writeEffect_arg (s : State) (width : Width) (v : Word) :
    s.writeEffect (regOffset .arg) width v = { s with arg := v } := by
  simp [State.writeEffect]

/-- Only CMD, ARG, RXLEN and CTRL take a write of the register region (20_memory.md R59). -/
theorem State.writeEffect_ignored {s : State} {off : Offset} {width : Width} {v : Word} (hlow : off.toNat < 0x100)
    (hro : off ∉ [regOffset .cmd, regOffset .arg, regOffset .rxlen, regOffset .ctrl]) :
    s.writeEffect off width v = s := by
  obtain ⟨r, rfl⟩ | hr := regOffset_or_reserved hlow
  · simp only [State.writeEffect, regionOf_regOffset]
    cases r with
    | cmd | arg | rxlen | ctrl => simp at hro
    | status | result | crc | txlen | pld | finfo => rfl
  · simp only [State.writeEffect, hr]

/-- Settles O42: the effect of a write of ARG, and of a register that takes none. -/
theorem registerWrites : Obligations.RegisterWrites := by
  intro s off v rest h hi hlow halign
  rw [step_write_legal h (legalAccess_low hlow halign) hi]
  refine ⟨?_, fun hro => by rw [State.writeEffect_ignored hlow hro]⟩
  rintro rfl
  exact congrArg _ (State.writeEffect_arg _ _ v)

/-! ## The windows (20_memory.md R54, R58, R59) -/

/-- An aligned access of the windows is legal. -/
theorem legalAccess_high {off : Offset} {width : Width} (hhigh : 0x100 ≤ off.toNat)
    (halign : off.toNat % width.bytes = 0) : LegalAccess off width :=
  ⟨fun hlow => absurd hlow (Nat.not_lt.2 hhigh), fun _ => halign⟩

/-- An offset from 0x100 on lies in a window. -/
theorem exists_window {off : Offset} (hhigh : 0x100 ≤ off.toNat) : ∃ b i, regionOf off = .window b i := by
  by_cases htx : off.toNat < 0x200
  · exact ⟨_, _, regionOf_tx hhigh htx⟩
  by_cases hrx : off.toNat < 0x300
  · exact ⟨_, _, regionOf_rx (Nat.not_lt.1 htx) hrx⟩
  · exact ⟨_, _, regionOf_data (Nat.not_lt.1 hrx)⟩

theorem Width.bytes_le (width : Width) : width.bytes ≤ 4 := by cases width <;> decide

/-- Lane `k` of a value read from the bus is its byte `k`. -/
theorem leValue_extractLsb' {bs : List Byte} {k : Nat} {b : Byte} (h : bs.length ≤ 4) (hk : bs[k]? = some b) :
    (leValue bs).extractLsb' (8 * k) 8 = b := by
  apply BitVec.eq_of_toNat_eq
  rw [BitVec.extractLsb'_toNat, Nat.shiftRight_eq_div_pow, leValue_lane h hk]

/-- The bytes that a read through a window returns. -/
def State.windowRead (s : State) (b : Buffer) (i : Nat) (width : Width) : List Byte :=
  ((s.buffer b).readSeq i width.bytes s.draws).1

@[simp] theorem State.windowRead_length (s : State) (b : Buffer) (i : Nat) (width : Width) :
    (s.windowRead b i width).length = width.bytes := Memory.readSeq_length _ _ _ _

theorem State.windowRead_mayRead (s : State) (b : Buffer) (i : Nat) (width : Width) :
    (s.buffer b).mayRead i (s.windowRead b i width) := Memory.readSeq_mayRead _ _ _ _

/-- A read through a window returns the value of its bytes and changes nothing of the block. -/
theorem State.hostRead_window {s : State} {off : Offset} {width : Width} {b : Buffer} {i : Nat}
    (hr : regionOf off = .window b i) :
    s.hostRead off width =
      { s with rdata := some (leValue (s.windowRead b i width)), draws := (s.hostRead off width).draws } := by
  rw [State.hostRead, State.busRead_window hr]
  rfl

/-- Settles O40: the offset lies in one window, whose buffer gives the bytes. -/
theorem windowReads : Obligations.WindowReads := by
  intro s off width rest h hb hhigh halign
  obtain ⟨b, i, hr⟩ := exists_window hhigh
  have hlen : (s.windowRead b i width).length ≤ 4 := by simpa using width.bytes_le
  have hmay := s.windowRead_mayRead b i width
  refine ⟨_, s.windowRead b i width, leValue (s.windowRead b i width),
    step_read_legal h (legalAccess_high hhigh halign) (State.mayRead_of_inactive off (State.idle_engineActive hb)),
    State.windowRead_length s b i width, fun htx => ?_, fun h200 hrx => ?_, fun hdata => ?_, State.hostRead_window hr,
    fun k x hx => leValue_extractLsb' hlen hx, by simpa using leValue_lt hlen⟩
  · cases hr.symm.trans (regionOf_tx hhigh htx)
    exact hmay
  · cases hr.symm.trans (regionOf_rx h200 hrx)
    exact hmay
  · cases hr.symm.trans (regionOf_data hdata)
    exact hmay

theorem State.writeEffect_txWindow {s : State} {off : Offset} {width : Width} {v : Word} {i : Nat}
    (hr : regionOf off = .window .tx i) : s.writeEffect off width v = s := by
  simp only [State.writeEffect, hr]

theorem State.writeEffect_rxWindow {s : State} {off : Offset} {width : Width} {v : Word} {i : Nat}
    (hr : regionOf off = .window .rx i) :
    s.writeEffect off width v = { s with rx := s.rx.writeAll i (leBytes width.bytes v) } := by
  simp only [State.writeEffect, hr]

theorem State.writeEffect_dataWindow {s : State} {off : Offset} {width : Width} {v : Word} {i : Nat}
    (hr : regionOf off = .window .data i) :
    s.writeEffect off width v = { s with data := s.data.writeAll i (leBytes width.bytes v) } := by
  simp only [State.writeEffect, hr]

/-- The first `n` lanes of a bus value, stored from index `i` on: those bytes, and no others (20_memory.md R54). -/
theorem Memory.writeAll_leBytes (m : Memory) (i n : Nat) (v : Word) :
    (∀ k, k < n → (m.writeAll i (leBytes n v)).lookup (i + k) = some (v.extractLsb' (8 * k) 8)) ∧
      m.sameOutside (m.writeAll i (leBytes n v)) i n :=
  ⟨fun k hk => Memory.writeAll_holds m i _ k _ (leBytes_get v hk),
    by simpa using Memory.writeAll_sameOutside m i (leBytes n v)⟩

/-- Settles O41, window by window. -/
theorem windowWrites : Obligations.WindowWrites := by
  intro s off width v rest h hi hhigh halign
  rw [step_write_legal h (legalAccess_high hhigh halign) hi]
  refine ⟨fun htx => ?_, fun h200 hrx => ?_, fun hdata => ?_⟩
  · rw [State.writeEffect_txWindow (regionOf_tx hhigh htx)]
  · rw [State.writeEffect_rxWindow (regionOf_rx h200 hrx)]
    exact ⟨_, rfl, rfl, Memory.writeAll_leBytes s.rx _ width.bytes v⟩
  · rw [State.writeEffect_dataWindow (regionOf_data hdata)]
    exact ⟨_, rfl, rfl, Memory.writeAll_leBytes s.data _ width.bytes v⟩

end Sys2Proof.Machine

/-! PROOFS. The statements of 30_encoding.md, format by format: what a format's decoder accepts are the words of its
encoder (`decodeB_eq_ok` and its like), since OP, the reserved bits and the fields fix every bit of a word. -/

namespace Sys2Proof

/-! ## One bit and one check -/

theorem getLsbD_eq_iff {w : Word} {k : Nat} {v : Bool} : w.getLsbD k = v ↔ w.toNat / 2 ^ k % 2 = v.toNat := by
  rw [← bit_eq]
  exact ⟨congrArg Bool.toNat, bool_eq_of_toNat⟩

theorem withReserved_eq_ok {w : Word} {k : Nat} {r : Except DecodeError Instr} {i : Instr} :
    withReserved w k r = .ok i ↔ w.toNat / 2 ^ k = 0 ∧ r = .ok i :=
  ⟨withReserved_inv, fun ⟨hw, hr⟩ => (withReserved_ok hw).trans hr⟩

theorem withCount_eq_ok {n : Len} {i j : Instr} : withCount n i = .ok j ↔ n.toNat ≤ 256 ∧ i = j :=
  ⟨fun h => (withCount_inv h).imp_right Eq.symm, fun ⟨hn, hi⟩ => hi ▸ withCount_ok hn⟩

theorem withCount_eq_ite (n : Len) (i : Instr) :
    withCount n i = if decide (n.toNat ≤ 256) then .ok i else .error .fieldRange := by
  by_cases hn : n.toNat ≤ 256 <;> simp [withCount, Config.dataCap, hn]

section Format

variable {w : Word} {op : Opcode} (hop : opcodeOf (opField w) = some op) {i : Instr}
include hop

/-! ## Words of a format (30_encoding.md R71, R82)

A word with the right OP is a format's encoding of some operands where its reserved bits are 0 and its fields are those
operands. -/

theorem encN_eq_iff : encN op = w ↔ w.toNat / 2 ^ 8 = 0 := by
  have hw := opField_toNat hop
  rw [← BitVec.toNat_inj, encN_toNat]
  omega

theorem encB_eq_iff {b : Byte} : encB op b = w ↔ w.toNat / 2 ^ 16 = 0 ∧ saField w = b := by
  have hw := opField_toNat hop
  have hb := b.isLt
  rw [← BitVec.toNat_inj, ← BitVec.toNat_inj, encB_toNat, saField, extract_toNat]
  omega

theorem encW_eq_iff {x : Half} : encW op x = w ↔ w.toNat / 2 ^ 24 = 0 ∧ imm16Field w = x := by
  have hw := opField_toNat hop
  have hx := x.isLt
  rw [← BitVec.toNat_inj, ← BitVec.toNat_inj, encW_toNat, imm16Field, extract_toNat]
  omega

theorem encL_eq_iff {n : Len} : encL op n = w ↔ w.toNat / 2 ^ 17 = 0 ∧ n9Field w = n := by
  have hw := opField_toNat hop
  have hn := n.isLt
  rw [← BitVec.toNat_inj, ← BitVec.toNat_inj, encL_toNat, n9Field, extract_toNat]
  omega

theorem encAF_eq_iff {sa fc : Byte} : encAF op sa fc = w ↔ w.toNat / 2 ^ 24 = 0 ∧ saField w = sa ∧ fcField w = fc := by
  have hw := opField_toNat hop
  have hsa := sa.isLt
  have hfc := fc.isLt
  rw [← BitVec.toNat_inj, ← BitVec.toNat_inj, ← BitVec.toNat_inj, encAF_toNat, saField, fcField, extract_toNat,
    extract_toNat]
  omega

theorem encRC_eq_iff {sa : Byte} {v : Bool} :
    encRC op sa v = w ↔ w.toNat / 2 ^ 17 = 0 ∧ saField w = sa ∧ coilVField w = v := by
  have hw := opField_toNat hop
  have hsa := sa.isLt
  have hv := v.toNat_le
  rw [coilVField, getLsbD_eq_iff, ← BitVec.toNat_inj, ← BitVec.toNat_inj, encRC_toNat, saField, extract_toNat]
  omega

theorem encBT_eq_iff {bidx : BitIndex} {cnt : Len} {v : Bool} :
    encBT op bidx cnt v = w ↔
      w.toNat / 2 ^ 29 = 0 ∧ bidxField w = bidx ∧ cntField w = cnt ∧ bitVField w = v := by
  have hw := opField_toNat hop
  have hbidx := bidx.isLt
  have hcnt := cnt.isLt
  have hv := v.toNat_le
  rw [bitVField, getLsbD_eq_iff, ← BitVec.toNat_inj, ← BitVec.toNat_inj, ← BitVec.toNat_inj, encBT_toNat, bidxField,
    cntField, extract_toNat, extract_toNat]
  omega

/-! ## What a format's decoder accepts (30_encoding.md R80) -/

theorem decodeN_eq_ok {j : Instr} : decodeN w i = .ok j ↔ encN op = w ∧ i = j := by
  rw [decodeN, withReserved_eq_ok, encN_eq_iff hop, Except.ok.injEq]

theorem decodeB_eq_ok {f : Byte → Instr} : decodeB w f = .ok i ↔ ∃ b, encB op b = w ∧ f b = i := by
  simp [decodeB, withReserved_eq_ok, encB_eq_iff hop, and_assoc]

theorem decodeW_eq_ok {f : Half → Instr} : decodeW w f = .ok i ↔ ∃ x, encW op x = w ∧ f x = i := by
  simp [decodeW, withReserved_eq_ok, encW_eq_iff hop, and_assoc]

theorem decodeL_eq_ok {f : Len → Instr} : decodeL w f = .ok i ↔ ∃ n, encL op n = w ∧ n.toNat ≤ 256 ∧ f n = i := by
  simp [decodeL, withReserved_eq_ok, withCount_eq_ok, encL_eq_iff hop, and_assoc]

theorem decodeAF_eq_ok {f : Byte → Byte → Instr} : decodeAF w f = .ok i ↔ ∃ sa fc, encAF op sa fc = w ∧ f sa fc = i := by
  simp [decodeAF, withReserved_eq_ok, encAF_eq_iff hop, and_assoc]

theorem decodeRC_eq_ok {f : Byte → Bool → Instr} : decodeRC w f = .ok i ↔ ∃ sa v, encRC op sa v = w ∧ f sa v = i := by
  simp [decodeRC, withReserved_eq_ok, encRC_eq_iff hop, and_assoc]

theorem decodeBitSet_eq_ok :
    decodeBitSet w = .ok i ↔ ∃ bidx cnt v, encBT op bidx cnt v = w ∧ cnt.toNat ≤ 256 ∧ .bitSet bidx cnt v = i := by
  simp [decodeBitSet, withReserved_eq_ok, withCount_eq_ok, encBT_eq_iff hop, and_assoc]

theorem decodeBitGet_eq_ok :
    decodeBitGet w = .ok i ↔ ∃ bidx cnt, encBT op bidx cnt false = w ∧ cnt.toNat ≤ 256 ∧ .bitGet bidx cnt = i := by
  cases hv : bitVField w <;> simp [decodeBitGet, withReserved_eq_ok, withCount_eq_ok, encBT_eq_iff hop, and_assoc, hv]

end Format

/-! ## Decoding and encoding (30_encoding.md R71 to R75, R82) -/

/-- The per-instruction family `Laws.EncodesOpcode`, of every command. -/
theorem opcodeOf_encode (i : Instr) : opcodeOf (opField (encode i)) = some (opcode i) := by
  cases i with
  | nop => exact Laws.EncodesOpcode.nop
  | beginPack sa fc => exact Laws.EncodesOpcode.beginPack sa fc
  | packByte b => exact Laws.EncodesOpcode.packByte b
  | packWord x => exact Laws.EncodesOpcode.packWord x
  | packBytes n => exact Laws.EncodesOpcode.packBytes n
  | endPack => exact Laws.EncodesOpcode.endPack
  | crcInit => exact Laws.EncodesOpcode.crcInit
  | crcFeed b => exact Laws.EncodesOpcode.crcFeed b
  | valCrc => exact Laws.EncodesOpcode.valCrc
  | valResp sa fc => exact Laws.EncodesOpcode.valResp sa fc
  | bitSet bidx cnt v => exact Laws.EncodesOpcode.bitSet bidx cnt v
  | bitGet bidx cnt => exact Laws.EncodesOpcode.bitGet bidx cnt
  | reqRdCoils sa => exact Laws.EncodesOpcode.reqRdCoils sa
  | reqRdDisc sa => exact Laws.EncodesOpcode.reqRdDisc sa
  | reqRdHregs sa => exact Laws.EncodesOpcode.reqRdHregs sa
  | reqRdIregs sa => exact Laws.EncodesOpcode.reqRdIregs sa
  | reqWrCoil sa v => exact Laws.EncodesOpcode.reqWrCoil sa v
  | reqWrReg sa => exact Laws.EncodesOpcode.reqWrReg sa
  | reqWrCoils sa => exact Laws.EncodesOpcode.reqWrCoils sa
  | reqWrRegs sa => exact Laws.EncodesOpcode.reqWrRegs sa

theorem decode_eq_decodeFields {w : Word} {op : Opcode} (hop : opcodeOf (opField w) = some op) :
    decode w = decodeFields op w := by
  rw [decode, hop]

/-- The fields of a well-formed command's word are read back, by the format of its row. -/
theorem decodeFields_encode (i : Instr) (hi : i.wf = true) : decodeFields (opcode i) (encode i) = .ok i := by
  have hop := opcodeOf_encode i
  cases i with
  | nop | endPack | crcInit | valCrc => exact (decodeN_eq_ok hop).2 ⟨rfl, rfl⟩
  | packByte b | crcFeed b | reqRdCoils b | reqRdDisc b | reqRdHregs b | reqRdIregs b | reqWrReg b | reqWrCoils b
  | reqWrRegs b => exact (decodeB_eq_ok hop).2 ⟨b, rfl, rfl⟩
  | packWord x => exact (decodeW_eq_ok hop).2 ⟨x, rfl, rfl⟩
  | packBytes n => exact (decodeL_eq_ok hop).2 ⟨n, rfl, of_decide_eq_true hi, rfl⟩
  | beginPack sa fc | valResp sa fc => exact (decodeAF_eq_ok hop).2 ⟨sa, fc, rfl, rfl⟩
  | reqWrCoil sa v => exact (decodeRC_eq_ok hop).2 ⟨sa, v, rfl, rfl⟩
  | bitSet bidx cnt v => exact (decodeBitSet_eq_ok hop).2 ⟨bidx, cnt, v, rfl, of_decide_eq_true hi, rfl⟩
  | bitGet bidx cnt => exact (decodeBitGet_eq_ok hop).2 ⟨bidx, cnt, rfl, of_decide_eq_true hi, rfl⟩

/-- What the fields of a row decode to is well formed and has that word, by the format of the row. -/
theorem encode_of_decodeFields {w : Word} {op : Opcode} {i : Instr} (hop : opcodeOf (opField w) = some op)
    (h : decodeFields op w = .ok i) : encode i = w ∧ i.wf = true := by
  cases op with
  | nop | endPack | crcInit | valCrc =>
    obtain ⟨hw, rfl⟩ := (decodeN_eq_ok hop).1 h
    exact ⟨hw, rfl⟩
  | packByte | crcFeed | reqRdCoils | reqRdDisc | reqRdHregs | reqRdIregs | reqWrReg | reqWrCoils | reqWrRegs =>
    obtain ⟨b, hw, rfl⟩ := (decodeB_eq_ok hop).1 h
    exact ⟨hw, rfl⟩
  | packWord =>
    obtain ⟨x, hw, rfl⟩ := (decodeW_eq_ok hop).1 h
    exact ⟨hw, rfl⟩
  | packBytes =>
    obtain ⟨n, hw, hn, rfl⟩ := (decodeL_eq_ok hop).1 h
    exact ⟨hw, decide_eq_true hn⟩
  | beginPack | valResp =>
    obtain ⟨sa, fc, hw, rfl⟩ := (decodeAF_eq_ok hop).1 h
    exact ⟨hw, rfl⟩
  | reqWrCoil =>
    obtain ⟨sa, v, hw, rfl⟩ := (decodeRC_eq_ok hop).1 h
    exact ⟨hw, rfl⟩
  | bitSet =>
    obtain ⟨bidx, cnt, v, hw, hcnt, rfl⟩ := (decodeBitSet_eq_ok hop).1 h
    exact ⟨hw, decide_eq_true hcnt⟩
  | bitGet =>
    obtain ⟨bidx, cnt, hw, hcnt, rfl⟩ := (decodeBitGet_eq_ok hop).1 h
    exact ⟨hw, decide_eq_true hcnt⟩

/-- Settles O1: the word selects the command's own row, whose format reads the operands back. -/
theorem decodeOfEncode : Obligations.DecodeOfEncode := by
  intro i hi
  rw [decode_eq_decodeFields (opcodeOf_encode i), decodeFields_encode i hi]

/-- Settles O2: a legal word has the OP of a row, whose format fixes every other bit by the operands. -/
theorem encodeOfDecode : Obligations.EncodeOfDecode := by
  intro w i h
  cases hop : opcodeOf (opField w) with
  | none => simp [decode, hop] at h
  | some op => exact encode_of_decodeFields hop (decode_eq_decodeFields hop ▸ h)

/-! ## The opcode table (30_encoding.md R81) -/

/-- A word selects a row by mask and match where its OP is the row's and the reserved bits of the row's format are 0. -/
theorem selects_row_iff {r : Machine.OpcodeRow} (hr : r ∈ Machine.opcodeRows) (w : Word) :
    w &&& r.mask = r.pattern ↔ opcodeOf (opField w) = some r.op ∧ reservedClear w (reservedFrom r.op) = true := by
  obtain ⟨hmask, hpattern⟩ := row_mask r hr
  have hop : opField w = r.op.toByte ↔ opcodeOf (opField w) = some r.op :=
    ⟨fun h => h ▸ opcodeOf_toByte r.op, fun h => (toByte_of_opcodeOf h).symm⟩
  rw [hmask, hpattern, ← hop]
  cases r.op <;> exact selects_iff w _ (by decide) (by decide)

theorem exists_row (op : Opcode) : ∃ r ∈ Machine.opcodeRows, r.op = op := by cases op <;> decide

/-- The second and third checks of R80, in their order. Only three rows have a field check. -/
theorem decodeFields_checks (op : Opcode) (w : Word) : ∃ i, opcode i = op ∧ decodeFields op w =
    withReserved w (reservedFrom op) (if Machine.fieldsInRange op w then .ok i else .error .fieldRange) := by
  cases op with
  | packBytes => exact ⟨.packBytes (n9Field w), rfl, congrArg (withReserved w 17) (withCount_eq_ite ..)⟩
  | bitSet =>
    exact ⟨.bitSet (bidxField w) (cntField w) (bitVField w), rfl, congrArg (withReserved w 29) (withCount_eq_ite ..)⟩
  | bitGet =>
    refine ⟨.bitGet (bidxField w) (cntField w), rfl, congrArg (withReserved w 29) ?_⟩
    have hf : Machine.fieldsInRange .bitGet w = (decide ((cntField w).toNat ≤ 256) && !bitVField w) := rfl
    rw [hf, withCount_eq_ite]
    cases bitVField w <;> simp
  | _ => exact ⟨_, rfl, rfl⟩

/-- Settles O3: a selected word passes the first two checks of R80 and meets the third; a word no row selects fails one of
the first two. -/
theorem decoderReadsOpcodeTable : Obligations.DecoderReadsOpcodeTable := by
  intro w
  refine ⟨fun r hr hsel => ?_, fun hnone => ?_⟩
  · obtain ⟨hop, hclear⟩ := (selects_row_iff hr w).1 hsel
    obtain ⟨i, hi, hd⟩ := decodeFields_checks r.op w
    rw [decode_eq_decodeFields hop, hd, withReserved, if_pos hclear]
    exact ⟨fun hf => ⟨i, if_pos hf, hi⟩, fun hf => if_neg (by simp [hf])⟩
  · cases hop : opcodeOf (opField w) with
    | none => exact .inl (by rw [decode, hop])
    | some op =>
      obtain ⟨r, hr, rfl⟩ := exists_row op
      obtain ⟨i, -, hd⟩ := decodeFields_checks r.op w
      have hset : ¬ reservedClear w (reservedFrom r.op) = true := fun hclear =>
        hnone r hr ((selects_row_iff hr w).2 ⟨hop, hclear⟩)
      exact .inr (by rw [decode_eq_decodeFields hop, hd, withReserved, if_neg hset])

/-- Settles O4: each example's word is the encoding of its command, so O1 decodes it. -/
theorem exampleWordsDecode : Obligations.ExampleWordsDecode :=
  ⟨decodeOfEncode .endPack rfl, decodeOfEncode (.packByte 0x2A#8) rfl, decodeOfEncode (.beginPack 1#8 3#8) rfl,
    decodeOfEncode (.packWord 0x1234#16) rfl, decodeOfEncode (.packBytes 2#9) rfl,
    decodeOfEncode (.bitSet 9#11 2#9 true) rfl, decodeOfEncode (.reqRdHregs 1#8) rfl,
    decodeOfEncode (.reqWrCoil 0x11#8 true) rfl⟩

end Sys2Proof

/-! PROOFS. The statements of 40_frame_codec.md: the CRC and its commands, the pack primitives, and the frames that they
build. -/

namespace Sys2Proof.Machine

/-! ## The CRC (40_frame_codec.md R106) -/

/-- Eight bit steps shift the high byte down and look the low byte up in the table: the steps are linear, so the two
parts go through them apart. -/
theorem crcShifts_eight (t : Half) : crcShifts 8 t = (t >>> 8) ^^^ crcTable (t.setWidth 8) := by
  have hsplit : t = ((crcHigh t).setWidth 16 <<< 8) ^^^ (t.setWidth 8).setWidth 16 := by
    apply BitVec.eq_of_getLsbD_eq
    intro i hi
    by_cases h : i < 8
    · simp [h, hi]
    · simp [h, hi, crcHigh, show i - 8 < 8 by omega, show 8 + (i - 8) = i by omega]
  have hhigh : (crcHigh t).setWidth 16 = t >>> 8 := by
    apply BitVec.eq_of_toNat_eq
    simp only [crcHigh, BitVec.toNat_setWidth, BitVec.extractLsb'_toNat, BitVec.toNat_ushiftRight,
      Nat.shiftRight_eq_div_pow]
    omega
  conv_lhs => rw [hsplit, crcShifts_xor, crcShifts_high, hhigh]
  rfl

/-- A byte has no part above bit 7. -/
theorem ushiftRight_xor_byte (acc : Half) (b : Byte) : (acc ^^^ b.setWidth 16) >>> 8 = acc >>> 8 := by
  have hb : b.setWidth 16 >>> 8 = 0#16 := by
    apply BitVec.eq_of_toNat_eq
    simp only [BitVec.toNat_ushiftRight, BitVec.toNat_setWidth, BitVec.toNat_ofNat, Nat.shiftRight_eq_div_pow]
    omega
  rw [BitVec.ushiftRight_xor_distrib, hb, BitVec.xor_zero]

/-- The table form and the bit-at-a-time form of a byte step (R106 item 3). -/
theorem crcStep_eq_crcShifts (acc : Half) (b : Byte) : crcStep acc b = crcShifts 8 (acc ^^^ b.setWidth 16) := by
  have hlow : (acc ^^^ b.setWidth 16).setWidth 8 = acc.setWidth 8 ^^^ b := by
    rw [BitVec.setWidth_xor, BitVec.setWidth_setWidth_of_le _ (by decide), BitVec.setWidth_eq]
  rw [crcShifts_eight, ushiftRight_xor_byte, hlow, crcStep_eq]

/-- Settles O6: the bit steps of the statement are the model's shifts, which make up the table. -/
theorem tableStepEqualsBitSteps : Obligations.TableStepEqualsBitSteps := by
  intro acc b
  rw [← funext crcShift_eq, crcStep_eq_crcShifts]
  rfl

/-- Settles O7: the low CRC byte shifts the high one down, which then cancels. -/
theorem crcResidueIsZero : Obligations.CrcResidueIsZero := by
  intro body
  rw [withCrc, crc16_append, List.foldl_cons, List.foldl_cons, List.foldl_nil, crcStep_crcLow, crcStep_crcHigh]

/-! ## CRC-valid frames (42_validator.md R140) -/

/-- A CRC-valid frame is its body with the CRC of its body appended. -/
theorem withCrc_of_crcValid {f : List Byte} (h : CrcValid f) : withCrc (f.take (f.length - 2)) = f := by
  obtain ⟨hlen, hlow, hhigh⟩ := h
  have hdrop : f.drop (f.length - 2) =
      [crcLow (crc16 (f.take (f.length - 2))), crcHigh (crc16 (f.take (f.length - 2)))] := by
    obtain ⟨h1, e1⟩ := List.getElem?_eq_some_iff.1 hlow
    obtain ⟨h2, e2⟩ := List.getElem?_eq_some_iff.1 hhigh
    rw [List.drop_eq_getElem_cons h1, e1, show f.length - 2 + 1 = f.length - 1 by omega,
      List.drop_eq_getElem_cons h2, e2, List.drop_eq_nil_of_le (by omega)]
  rw [withCrc, ← hdrop, List.take_append_drop]

theorem crc16_of_crcValid {f : List Byte} (h : CrcValid f) : crc16 f = 0x0000#16 :=
  withCrc_of_crcValid h ▸ crcResidueIsZero (f.take (f.length - 2))

theorem flipBit_length (f : List Byte) (k j : Nat) : (flipBit f k j).length = f.length := List.length_modify ..

/-- Flipping a bit changes the byte. -/
theorem xor_oneShift_ne {j : Nat} (hj : j < 8) (b : Byte) : b ^^^ (1#8 <<< j) ≠ b := by
  intro h
  have hbit := congrArg (BitVec.getLsbD · j) h
  simp [getLsbD_oneShift j hj j hj] at hbit

/-- One flipped bit makes a CRC-valid frame invalid (R106 item 2): the CRC of the whole frame, 0, changes. -/
theorem not_crcValid_flipBit {f : List Byte} {k j : Nat} (h : CrcValid f) (hk : k < f.length) (hj : j < 8) :
    ¬ CrcValid (flipBit f k j) := fun hflip =>
  crc16_modify_ne _ hk (xor_oneShift_ne hj) ((crc16_of_crcValid hflip).trans (crc16_of_crcValid h).symm)

/-- VAL_CRC on a CRC-valid frame in RX (R141). -/
theorem exec_valCrc_valid {s : State} {f : List Byte} (h : CrcValid f) (hlen : f.length = s.rxlen.toNat)
    (hrx : s.rx.holds 0 f) :
    exec .valCrc s = .next { s with crc := crc16 (f.take (f.length - 2)), result := okResult } := by
  rw [exec, execValCrc_holds hlen h.1 hrx, if_pos h, setResult_ok]

/-- VAL_CRC on any other frame in RX of at least the minimum length (R141). -/
theorem exec_valCrc_invalid {s : State} {f : List Byte} (h : ¬ CrcValid f) (h4 : 4 ≤ f.length)
    (hlen : f.length = s.rxlen.toNat) (hrx : s.rx.holds 0 f) :
    exec .valCrc s =
      .next ({ s with crc := crc16 (f.take (f.length - 2)) }.setResult .invalidCrc16 0#8 false) := by
  rw [exec, execValCrc_holds hlen h4 hrx, if_neg h]

/-- Settles O8: VAL_CRC compares the frame in RX with R140. -/
theorem singleBitErrorIsDetected : Obligations.SingleBitErrorIsDetected := by
  intro s u f k j hvalid hlen hrx hk hj hulen hurx
  have hflip := flipBit_length f k j
  exact ⟨⟨_, exec_valCrc_valid hvalid hlen hrx, rfl⟩, _, exec_valCrc_invalid (not_crcValid_flipBit hvalid hk hj)
    (by rw [hflip]; exact hvalid.1) (by rw [hflip, hulen, hlen]) hurx, rfl⟩

/-! ## The CRC commands (40_frame_codec.md R104, R105) -/

theorem exec_crcInit (s : State) : exec .crcInit s = .next { s with crc := 0xFFFF#16, result := okResult } := rfl

theorem exec_crcFeed (b : Byte) (s : State) :
    exec (.crcFeed b) s = .next { s with crc := crcStep s.crc b, result := okResult } := rfl

/-- Settles O9: CRC_FEED is `crcStep`, which the statement writes out. -/
theorem crcCommandEffects : Obligations.CrcCommandEffects :=
  ⟨exec_crcInit, rfl, exec_crcFeed, fun _ => rfl⟩

/-- CRC_FEED of a sequence folds it into CRC, where RESULT is OK before. -/
theorem runCommands_crcFeed (bytes : List Byte) (c : Half) {s : State} (hf : s.status.fatal = false) :
    runCommands (bytes.map .crcFeed) { s with crc := c, result := okResult } =
      some { s with crc := bytes.foldl crcStep c, result := okResult } := by
  induction bytes generalizing c with
  | nil => rfl
  | cons b bytes ih =>
    simp only [List.map_cons, runCommands, exec_crcFeed, hf, Bool.false_eq_true, if_false]
    exact ih (crcStep c b)

/-- Settles O10: CRC_INIT leaves the CRC of the empty sequence, and each CRC_FEED takes one byte in. -/
theorem crcStreamGivesCrc16 : Obligations.CrcStreamGivesCrc16 := by
  intro bytes s hf
  simp only [runCommands, exec_crcInit, hf, Bool.false_eq_true, if_false]
  exact runCommands_crcFeed bytes 0xFFFF#16 hf

/-! ## Appending to TX (40_frame_codec.md R110) -/

/-- The state with `bs` appended to TX. -/
def State.appended (s : State) (bs : List Byte) : State :=
  { s with tx := s.tx.writeAll s.txlen.toNat bs, txlen := s.txlen + BitVec.ofNat 9 bs.length }

theorem State.appended_holds (s : State) (bs : List Byte) : (s.appended bs).tx.holds s.txlen.toNat bs :=
  Memory.writeAll_holds s.tx _ bs

theorem State.appended_sameOutside (s : State) (bs : List Byte) :
    s.tx.sameOutside (s.appended bs).tx s.txlen.toNat bs.length :=
  Memory.writeAll_sameOutside s.tx _ bs

theorem State.appended_txlen {s : State} {bs : List Byte} (h : s.txlen.toNat + bs.length ≤ 256) :
    (s.appended bs).txlen.toNat = s.txlen.toNat + bs.length :=
  len_add h

/-! ## The pack commands (40_frame_codec.md R111 to R115) -/

theorem exec_beginPack (sa fc : Byte) (s : State) :
    exec (.beginPack sa fc) s = .next ((s.framed [sa, fc]).setResult .ok 0#8 false) := rfl

theorem exec_packByte {b : Byte} {s : State} (h : s.txlen.toNat + 1 ≤ 256) :
    exec (.packByte b) s = .next ((s.appended [b]).setResult .ok 0#8 false) := by
  rw [exec, execPackByte, append, appendBytes_ok h, finishPack_ok]
  rfl

theorem exec_packWord {w : Half} {s : State} (h : s.txlen.toNat + 2 ≤ 256) :
    exec (.packWord w) s = .next ((s.appended (wordBytes w)).setResult .ok 0#8 false) := by
  rw [exec, execPackWord, packWordSteps_ok h, finishPack_ok]
  rfl

theorem exec_packBytes {n : Len} {s : State} (h : s.txlen.toNat + n.toNat ≤ 256) :
    exec (.packBytes n) s =
      .next (({ s with draws := (s.data.readSeq 0 n.toNat s.draws).2 }.appended
        (dataRead s n.toNat)).setResult .ok 0#8 false) := by
  rw [exec, execPackBytes, packBytesSteps_ok h, finishPack_ok, State.appended, dataRead_length]
  rfl

/-- The CRC bytes in the order END_PACK appends them (R115). -/
def crcBytes (c : Half) : List Byte := [crcLow c, crcHigh c]

theorem exec_endPack {s : State} (h : s.txlen.toNat + 2 ≤ 256) :
    exec .endPack s =
      .next ({ { s with draws := (s.tx.readSeq 0 s.txlen.toNat s.draws).2 }.appended
        (crcBytes (crc16 (frameRead s))) with crc := crc16 (frameRead s) }.setResult .ok 0#8 false) := by
  rw [exec, execEndPack, endPackSteps_ok h, finishPack_ok]
  rfl

theorem exec_packByte_error {b : Byte} {s : State} (h : 256 < s.txlen.toNat + 1) :
    exec (.packByte b) s = .next (s.raiseFatal .txCap (encode (.packByte b))) := by
  rw [exec, execPackByte, append, appendBytes_error h, finishPack_error]

theorem exec_packWord_error {w : Half} {s : State} (h : 256 < s.txlen.toNat + 2) :
    exec (.packWord w) s = .next (s.raiseFatal .txCap (encode (.packWord w))) := by
  rw [exec, execPackWord, packWordSteps_error h, finishPack_error]

theorem exec_packBytes_error {n : Len} {s : State} (h : 256 < s.txlen.toNat + n.toNat) :
    exec (.packBytes n) s = .next (s.raiseFatal .txCap (encode (.packBytes n))) := by
  rw [exec, execPackBytes, packBytesSteps_error h, finishPack_error]

theorem exec_endPack_error {s : State} (h : 256 < s.txlen.toNat + 2) :
    exec .endPack s = .next (s.raiseFatal .txCap (encode .endPack)) := by
  rw [exec, execEndPack, endPackSteps_error h, finishPack_error]

/-- Settles O11: BEGIN_PACK leaves the frame of its two bytes. -/
theorem beginPackEffect : Obligations.BeginPackEffect := fun sa fc s =>
  ⟨rfl, _, exec_beginPack sa fc s, s.framed_holds [sa, fc], s.framed_sameOutside [sa, fc], rfl⟩

/-- Settles O12, by whether one byte fits. -/
theorem packByteEffect : Obligations.PackByteEffect := fun b s =>
  ⟨rfl, fun h => ⟨_, exec_packByte h, s.appended_holds [b], s.appended_sameOutside [b], State.appended_txlen h, rfl⟩,
    exec_packByte_error⟩

/-- Settles O13, by whether two bytes fit. -/
theorem packWordEffect : Obligations.PackWordEffect := fun w s =>
  ⟨rfl, fun h => ⟨_, exec_packWord h, s.appended_holds (wordBytes w), s.appended_sameOutside (wordBytes w),
    State.appended_txlen (bs := wordBytes w) h, rfl⟩, exec_packWord_error⟩

/-- Settles O14, by whether the bytes fit; they are those the reads of DATA return. -/
theorem packBytesEffect : Obligations.PackBytesEffect := by
  intro n s
  refine ⟨rfl, fun h => ?_, exec_packBytes_error⟩
  have hlen := dataRead_length s n.toNat
  have hsame := s.appended_sameOutside (dataRead s n.toNat)
  have htxlen := State.appended_txlen (s := s) (bs := dataRead s n.toNat) (by rwa [hlen])
  rw [hlen] at hsame htxlen
  exact ⟨_, _, exec_packBytes h, hlen, Memory.readSeq_mayRead _ _ _ _, s.appended_holds _, hsame, htxlen, rfl⟩

/-- Settles O15, by whether the CRC bytes fit; the body is what the reads of TX return. -/
theorem endPackEffect : Obligations.EndPackEffect := fun s =>
  ⟨rfl, fun h => ⟨_, frameRead s, exec_endPack h, Memory.readSeq_length _ _ _ _, Memory.readSeq_mayRead _ _ _ _,
    s.appended_holds (crcBytes _), s.appended_sameOutside (crcBytes _),
    State.appended_txlen (s := s) (bs := crcBytes _) h, rfl, rfl⟩, exec_endPack_error⟩

/-! ## Packed frames (40_frame_codec.md R116) -/

/-- The first `n` bytes of a buffer are written and are `body`. -/
structure Memory.HasBody (m : Memory) (n : Len) (body : List Byte) : Prop where
  holds : m.holds 0 body
  length : body.length = n.toNat

/-- Appending bytes that fit extends the frame (R110). -/
theorem Memory.HasBody.append {m : Memory} {n : Len} {body bs : List Byte} (h : m.HasBody n body)
    (hfit : n.toNat + bs.length ≤ 256) :
    (m.writeAll n.toNat bs).HasBody (n + BitVec.ofNat 9 bs.length) (body ++ bs) where
  holds := by
    refine Memory.holds_append.2 ⟨?_, ?_⟩
    · exact Memory.holds_of_sameOutside (Memory.writeAll_sameOutside m _ bs) h.holds (.inl (by rw [h.length]; omega))
    · rw [h.length, Nat.zero_add]
      exact Memory.writeAll_holds m _ bs
  length := by rw [List.length_append, h.length, len_add hfit]

/-- END_PACK reads a written frame as it is. -/
theorem frameRead_of_hasBody {s : State} {body : List Byte} (h : s.tx.HasBody s.txlen body) : frameRead s = body := by
  rw [frameRead, ← h.length, Memory.readSeq_holds h.holds]

/-- A command that leaves FATAL 0 raises no fatal fault. -/
theorem not_raiseFatal_of_exec {i : Instr} {s t : State} {c : FatalCause} {w : Word} (h : exec i s = .next t)
    (hf : t.status.fatal = false) : exec i s ≠ .next (s.raiseFatal c w) := by
  intro hfatal
  cases h.symm.trans hfatal
  cases hf

/-- A payload command without a fault appends bytes that fit; beside, it writes RESULT and the draws alone. -/
theorem exec_payload {i : Instr} {s t : State} (hi : packsPayload i = true) (h : exec i s = .next t)
    (hf : t.status.fatal = false) :
    ∃ bs d, s.txlen.toNat + bs.length ≤ 256 ∧ t = ({ s with draws := d }.appended bs).setResult .ok 0#8 false := by
  cases i with
  | packByte b =>
    have hfit := Nat.le_of_not_lt fun hn => not_raiseFatal_of_exec h hf (exec_packByte_error hn)
    cases (exec_packByte hfit).symm.trans h
    exact ⟨[b], s.draws, hfit, rfl⟩
  | packWord w =>
    have hfit := Nat.le_of_not_lt fun hn => not_raiseFatal_of_exec h hf (exec_packWord_error hn)
    cases (exec_packWord hfit).symm.trans h
    exact ⟨wordBytes w, s.draws, hfit, rfl⟩
  | packBytes n =>
    have hfit := Nat.le_of_not_lt fun hn => not_raiseFatal_of_exec h hf (exec_packBytes_error hn)
    cases (exec_packBytes hfit).symm.trans h
    exact ⟨dataRead s n.toNat, _, by rwa [dataRead_length], rfl⟩
  | _ => cases hi

/-- A run of payload commands without a fault extends the frame. -/
theorem runCommands_payload {packs : List Instr} {s t : State} {body : List Byte} (hs : s.tx.HasBody s.txlen body)
    (hp : ∀ i ∈ packs, packsPayload i = true) (h : runCommands packs s = some t) :
    ∃ bs, t.tx.HasBody t.txlen (body ++ bs) := by
  induction packs generalizing s body with
  | nil =>
    cases h
    exact ⟨[], by rwa [List.append_nil]⟩
  | cons i packs ih =>
    obtain ⟨hi, hp⟩ := List.forall_mem_cons.1 hp
    obtain ⟨u, hu, hf, h⟩ := runCommands_cons h
    obtain ⟨bs, d, hfit, rfl⟩ := exec_payload hi hu hf
    obtain ⟨bs', ht⟩ := ih (hs.append hfit) hp h
    exact ⟨bs ++ bs', by rwa [← List.append_assoc]⟩

/-- END_PACK without a fault ends the frame with its CRC. -/
theorem exec_endPack_hasBody {s t : State} {body : List Byte} (hs : s.tx.HasBody s.txlen body)
    (h : exec .endPack s = .next t) (hf : t.status.fatal = false) :
    t.tx.HasBody t.txlen (withCrc body) ∧ t.crc = crc16 body := by
  have hfit := Nat.le_of_not_lt fun hn => not_raiseFatal_of_exec h hf (exec_endPack_error hn)
  have hexec := exec_endPack hfit
  rw [frameRead_of_hasBody hs] at hexec
  cases hexec.symm.trans h
  exact ⟨hs.append hfit, rfl⟩

theorem take_withCrc (body : List Byte) : (withCrc body).take ((withCrc body).length - 2) = body := by simp [withCrc]

/-- Settles O16: the frame is the body the pack commands built, with its CRC appended. -/
theorem packedFrameValidates : Obligations.PackedFrameValidates := by
  intro sa fc packs s t hp h
  obtain ⟨u, hu, hend⟩ := runCommands_append h
  obtain ⟨v, hv, -, hpacks⟩ := runCommands_cons hu
  have hbegin : v.tx.HasBody v.txlen [sa, fc] := by
    cases (exec_beginPack sa fc s).symm.trans hv
    exact ⟨s.framed_holds [sa, fc], rfl⟩
  obtain ⟨bs, hbody⟩ := runCommands_payload hbegin hp hpacks
  obtain ⟨t', ht', hf, hnil⟩ := runCommands_cons hend
  cases hnil
  obtain ⟨hframe, hcrc⟩ := exec_endPack_hasBody hbody ht' hf
  have hvalid : CrcValid (withCrc ([sa, fc] ++ bs)) := crcValid_withCrc (by simp)
  refine ⟨_, hframe.length, hframe.holds, hvalid, fun w hrx hrxlen => ?_⟩
  refine ⟨_, exec_valCrc_valid hvalid (by rw [hrxlen, hframe.length]) hrx, rfl, ?_⟩
  rw [take_withCrc, hcrc]

end Sys2Proof.Machine

/-! PROOFS. The statements of 41_bit_packing.md: the bit commands, and reading back what BIT_SET wrote. -/

namespace Sys2Proof.Machine

/-! ## The bit commands (41_bit_packing.md R131, R132) -/

/-- The DATA byte that a bit command reads (R131, R132); a fresh value where it is unwritten. -/
def bitByteRead (bidx : BitIndex) (s : State) : Byte := (s.data.read (byteIndex bidx) s.draws).1

/-- The number of free values drawn after that read. -/
def bitByteDraws (bidx : BitIndex) (s : State) : Nat := (s.data.read (byteIndex bidx) s.draws).2

theorem bitByteRead_mayRead (bidx : BitIndex) (s : State) : s.data.mayRead (bidx.toNat / 8) [bitByteRead bidx s] :=
  Memory.read_mayRead_one s.data (byteIndex bidx) s.draws

theorem bitByteRead_written {bidx : BitIndex} {s : State} {x : Byte} (h : s.data.lookup (bidx.toNat / 8) = some x) :
    bitByteRead bidx s = x :=
  Memory.read_mayRead s.data (byteIndex bidx) s.draws h

/-- DATA after BIT_SET: the byte read is written back whole, with one bit replaced (R131). -/
def bitWritten (bidx : BitIndex) (v : Bool) (s : State) : Memory :=
  s.data.write (bidx.toNat / 8) (setBit (bitByteRead bidx s) bidx v)

theorem lookup_bitWritten (bidx : BitIndex) (v : Bool) (s : State) :
    (bitWritten bidx v s).lookup (bidx.toNat / 8) = some (setBit (bitByteRead bidx s) bidx v) :=
  Memory.lookup_write_self ..

theorem lookup_bitWritten_other {bidx : BitIndex} (v : Bool) (s : State) {a : Nat} (h : a ≠ bidx.toNat / 8) :
    (bitWritten bidx v s).lookup a = s.data.lookup a :=
  Memory.lookup_write_other _ _ h.symm

theorem bitWritten_holds (bidx : BitIndex) (v : Bool) (s : State) :
    (bitWritten bidx v s).holds (bidx.toNat / 8) [setBit (bitByteRead bidx s) bidx v] :=
  Memory.writeAll_holds s.data _ [_]

theorem bitWritten_sameOutside (bidx : BitIndex) (v : Bool) (s : State) :
    s.data.sameOutside (bitWritten bidx v s) (bidx.toNat / 8) 1 :=
  Memory.writeAll_sameOutside s.data _ [_]

theorem exec_bitSet {bidx : BitIndex} {cnt : Len} {v : Bool} {s : State} (h : bidx.toNat / 8 < cnt.toNat) :
    exec (.bitSet bidx cnt v) s =
      .next { s with data := bitWritten bidx v s, result := okResult, draws := bitByteDraws bidx s } :=
  if_neg (Nat.not_le_of_lt h)

theorem exec_bitSet_error {bidx : BitIndex} {cnt : Len} {v : Bool} {s : State} (h : cnt.toNat ≤ bidx.toNat / 8) :
    exec (.bitSet bidx cnt v) s = .next (s.raiseFatal .bitRange (encode (.bitSet bidx cnt v))) :=
  if_pos h

theorem exec_bitGet {bidx : BitIndex} {cnt : Len} {s : State} (h : bidx.toNat / 8 < cnt.toNat) :
    exec (.bitGet bidx cnt) s =
      .next { s with
        result := { kind := kindCode .ok, exc := 0#8, bit := (bitByteRead bidx s).getLsbD (bidx.toNat % 8) }
        draws := bitByteDraws bidx s } :=
  if_neg (Nat.not_le_of_lt h)

theorem exec_bitGet_error {bidx : BitIndex} {cnt : Len} {s : State} (h : cnt.toNat ≤ bidx.toNat / 8) :
    exec (.bitGet bidx cnt) s = .next (s.raiseFatal .bitRange (encode (.bitGet bidx cnt))) :=
  if_pos h

/-- The word of BIT_GET has no V (R132). -/
theorem encode_bitGet (bidx : BitIndex) (cnt : Len) :
    encode (.bitGet bidx cnt) = (cnt.setWidth 32 <<< 19) ||| (bidx.setWidth 32 <<< 8) ||| 0x19#32 := by
  have hv : (BitVec.ofBool false).setWidth 32 <<< 28 = 0#32 := by decide
  rw [encode, encBT, hv, BitVec.zero_or]
  rfl

/-- Settles O17, by whether BIDX / 8 is below CNT. -/
theorem bitSetEffect : Obligations.BitSetEffect := fun bidx _ v s =>
  ⟨rfl, fun h => ⟨_, bitByteRead bidx s, _, exec_bitSet h, bitByteRead_mayRead bidx s, bitWritten_holds bidx v s,
    fun _ hj => getLsbD_setBit _ bidx v hj, bitWritten_sameOutside bidx v s, rfl⟩, exec_bitSet_error⟩

/-- Settles O18, by whether BIDX / 8 is below CNT. -/
theorem bitGetEffect : Obligations.BitGetEffect := fun bidx cnt s =>
  ⟨encode_bitGet bidx cnt, fun h => ⟨_, _, exec_bitGet h, bitByteRead_mayRead bidx s, rfl⟩, exec_bitGet_error⟩

/-! ## Reading back (41_bit_packing.md R133) -/

/-- The bit that BIT_SET wrote has the value set. -/
theorem getLsbD_setBit_self (old : Byte) (bidx : BitIndex) (v : Bool) :
    (setBit old bidx v).getLsbD (bidx.toNat % 8) = v := by
  rw [getLsbD_setBit old bidx v (Nat.mod_lt _ (by decide)), if_pos rfl]

/-- Another bit index of the same byte keeps its value. -/
theorem getLsbD_setBit_other (old : Byte) {i j : BitIndex} (v : Bool) (hne : j ≠ i) (hbyte : j.toNat / 8 = i.toNat / 8) :
    (setBit old i v).getLsbD (j.toNat % 8) = old.getLsbD (j.toNat % 8) := by
  have hbit : j.toNat % 8 ≠ i.toNat % 8 := fun h => hne (BitVec.eq_of_toNat_eq (by omega))
  rw [getLsbD_setBit old i v (Nat.mod_lt _ (by decide)), if_neg hbit]

/-- Every other bit index of a written byte reads the same after BIT_SET (R133). -/
theorem bitWritten_getLsbD_other {i j : BitIndex} (v : Bool) (s : State) {x : Byte} (hne : j ≠ i)
    (hx : s.data.lookup (j.toNat / 8) = some x) :
    ∃ y, (bitWritten i v s).lookup (j.toNat / 8) = some y ∧ y.getLsbD (j.toNat % 8) = x.getLsbD (j.toNat % 8) := by
  by_cases hbyte : j.toNat / 8 = i.toNat / 8
  · have hread : bitByteRead i s = x := bitByteRead_written (hbyte ▸ hx)
    refine ⟨_, hbyte ▸ lookup_bitWritten i v s, ?_⟩
    rw [hread, getLsbD_setBit_other x v hne hbyte]
  · exact ⟨x, by rw [lookup_bitWritten_other v s hbyte, hx], rfl⟩

/-- Settles O19: BIT_SET leaves its byte written, so BIT_GET reads that very byte. -/
theorem bitRoundTrip : Obligations.BitRoundTrip := by
  intro i cnt v s _ h
  refine ⟨_, exec_bitSet h, ⟨_, exec_bitGet h, ?_⟩, fun j hne =>
    ⟨fun _ hx => bitWritten_getLsbD_other v s hne hx, fun hbyte => lookup_bitWritten_other v s hbyte⟩⟩
  rw [bitByteRead_written (lookup_bitWritten i v s), getLsbD_setBit_self]

end Sys2Proof.Machine

/-! PROOFS. The statements of 42_validator.md: VAL_CRC and VAL_RESP on frames below the minimum length and from it on. -/

namespace Sys2Proof.Machine

/-! ## VAL_CRC (42_validator.md R141) -/

theorem exec_valCrc_short {s : State} (h : s.rxlen.toNat < 4) :
    exec .valCrc s = .next (s.setResult .malformed 0#8 false) :=
  if_pos h

/-- Settles O20, by whether RXLEN is below 4; the bytes are those the CRC check reads. -/
theorem valCrcEffect : Obligations.ValCrcEffect := by
  refine fun s => ⟨rfl, exec_valCrc_short, fun h => ?_⟩
  obtain ⟨body, low, high, hlen, hread, hcrc, hok⟩ := checkCrc_reads s h
  refine ⟨_, body, low, high, execValCrc_long h, hlen, hread, ?_⟩
  simp only [hcrc, hok, decide_eq_true_eq, State.setResult, apply_ite kindCode]
  rfl

/-! ## VAL_RESP (42_validator.md R142, R143) -/

theorem exec_valResp_short {sa fc : Byte} {s : State} (h : s.rxlen.toNat < 4) :
    exec (.valResp sa fc) s = .next (s.finishResponse 0#9 0#8 .malformed 0#8) :=
  if_pos h

/-- Settles O21, by whether RXLEN is below 4; from there by the checks in the order of R143. Where the CRC check fails,
steps 3 and 4 do not run, and any values that RX[0..2] may read as will do for `a`, `f` and `e`. -/
theorem valRespEffect : Obligations.ValRespEffect := by
  refine fun sa fc s => ⟨rfl, exec_valResp_short, fun h => ?_⟩
  obtain ⟨body, low, high, hlen, hread, hcrc, hok⟩ := checkCrc_reads s h
  obtain ⟨a, f, e, ha, hf, he, d, hcheck⟩ :=
    checkResponse_cases sa fc { s with crc := (checkCrc s).1, draws := (checkCrc s).2.2 }
  refine ⟨_, body, low, high, a, f, e, execValResp_long h, hlen, hread, ha, hf, he, ?_⟩
  by_cases hvalid : low = (crc16 body).extractLsb' 0 8 ∧ high = (crc16 body).extractLsb' 8 8
  · have hplen : (s.rxlen - 4#9).toNat = s.rxlen.toNat - 4 := BitVec.toNat_sub_of_le (BitVec.le_def.2 h)
    rw [if_pos (hok.trans (decide_eq_true hvalid)), if_neg (not_not.2 hvalid), hcheck, hcrc, ← hplen]
    split
    · exact ⟨rfl, rfl, rfl⟩
    split
    · exact ⟨rfl, rfl, rfl⟩
    split <;> exact ⟨rfl, rfl, rfl⟩
  · rw [if_neg (ne_true_of_eq_false (hok.trans (decide_eq_false hvalid))), if_pos hvalid, hcrc]
    exact ⟨rfl, rfl, rfl⟩

end Sys2Proof.Machine

/-! PROOFS. The statements of 43_request_builders.md: the frames of the request builders, and the primitive commands each of
them stands for. -/

namespace Sys2Proof.Machine

/-! ## Requests of two words (43_request_builders.md R161 to R166) -/

/-- ARG.HI in a request frame, high byte first. -/
theorem wordBytes_argHi (arg : Word) : wordBytes (argHi arg) = [arg.extractLsb' 24 8, arg.extractLsb' 16 8] :=
  List.append_inj_left (wordBytes_arg arg) rfl

/-- The body of a request of an address and a second word, both from ARG. -/
theorem twoWordBody_arg (sa fc : Byte) (arg : Word) :
    twoWordBody sa fc (argHi arg) (argLo arg) = [sa, fc] ++ argBytes arg := by
  rw [twoWordBody, List.append_assoc, wordBytes_arg]

/-- What a request of two words answers, said once for all six: its frame of eight bytes, and nothing else changed. -/
theorem exec_twoWordRequest {i : Instr} {sa fc : Byte} {w : Half} {s : State}
    (h : exec i s = finishPack (encode i) s (twoWordRequest sa fc w s)) :
    ∃ t, exec i s = .next t ∧ t.tx.holds 0 (withCrc (twoWordBody sa fc (argHi s.arg) w)) ∧ s.tx.sameOutside t.tx 0 8 ∧
      t = { s with tx := t.tx, txlen := 8#9, crc := crc16 (twoWordBody sa fc (argHi s.arg) w), result := okResult } := by
  rw [h, twoWordRequest_ok, finishPack_ok]
  exact ⟨_, rfl, s.framed_holds _, s.framed_sameOutside _, rfl⟩

/-- Settles O22, request by request: each packs ARG.HI and ARG.LO. -/
theorem argRequestFrames : Obligations.ArgRequestFrames := by
  intro sa s i fc hmem
  rw [← twoWordBody_arg]
  simp only [List.mem_cons, Prod.mk.injEq, List.not_mem_nil, or_false] at hmem
  obtain ⟨rfl, rfl⟩ | ⟨rfl, rfl⟩ | ⟨rfl, rfl⟩ | ⟨rfl, rfl⟩ | ⟨rfl, rfl⟩ := hmem <;>
    exact ⟨rfl, exec_twoWordRequest rfl⟩

/-- The bytes of a coil value in a request frame (R165). -/
theorem wordBytes_coilWord (v : Bool) : wordBytes (coilWord v) = [if v then 0xFF#8 else 0x00#8, 0x00#8] := by
  cases v <;> decide

/-- Settles O23: the second word is the coil's, in place of ARG.LO. -/
theorem coilRequestFrame : Obligations.CoilRequestFrame := by
  intro sa v s
  obtain ⟨t, hexec, hholds, hsame, ht⟩ := exec_twoWordRequest (i := .reqWrCoil sa v) (s := s) rfl
  refine ⟨rfl, t, _, hexec, ?_, hholds, hsame, ht⟩
  rw [twoWordBody, wordBytes_argHi, wordBytes_coilWord]
  rfl

/-! ## Requests with data (43_request_builders.md R167, R168) -/

/-- The body of a request with data: ARG, the byte count and the bytes. -/
theorem dataBody_arg (sa fc : Byte) (arg : Word) (bytes : List Byte) :
    dataBody sa fc (argHi arg) (argLo arg) bytes =
      [sa, fc] ++ argBytes arg ++ [BitVec.ofNat 8 bytes.length] ++ bytes := by
  rw [dataBody, List.append_assoc [sa, fc], wordBytes_arg, byteCount]

theorem dataBody_length (sa fc : Byte) (hi lo : Half) (bytes : List Byte) :
    (dataBody sa fc hi lo bytes).length = 7 + bytes.length := by
  rw [dataBody, List.length_append]
  rfl

theorem withCrc_dataBody_length (sa fc : Byte) (hi lo : Half) (bytes : List Byte) :
    (withCrc (dataBody sa fc hi lo bytes)).length = 9 + bytes.length := by
  rw [withCrc, List.length_append, dataBody_length, Nat.add_right_comm]
  rfl

/-- What a request with data answers where its frame fits, said once for both: its frame, and nothing else changed but the
draws of its reads of DATA. -/
theorem exec_dataRequest {i : Instr} {sa fc : Byte} {n : Nat} {s : State}
    (h : exec i s = finishPack (encode i) s (dataRequest sa fc n s)) (hfit : 9 + n ≤ 256) :
    ∃ t bytes body, exec i s = .next t ∧ bytes.length = n ∧ s.data.mayRead 0 bytes ∧
      body = [sa, fc] ++ argBytes s.arg ++ [BitVec.ofNat 8 n] ++ bytes ∧
      t.tx.holds 0 (withCrc body) ∧ s.tx.sameOutside t.tx 0 (9 + n) ∧ t.txlen.toNat = 9 + n ∧
      t = { s with tx := t.tx, txlen := t.txlen, crc := crc16 body, result := okResult, draws := t.draws } := by
  have hbody := dataBody_arg sa fc s.arg (dataRead s n)
  have hlen := withCrc_dataBody_length sa fc (argHi s.arg) (argLo s.arg) (dataRead s n)
  have hsame := s.framed_sameOutside (withCrc (dataBody sa fc (argHi s.arg) (argLo s.arg) (dataRead s n)))
  rw [dataRead_length] at hbody hlen
  rw [hlen] at hsame
  rw [h, dataRequest_ok hfit, finishPack_ok]
  exact ⟨_, _, _, rfl, dataRead_length s n, Memory.readSeq_mayRead _ _ _ _, hbody, State.framed_holds _ _, hsame,
    (State.framed_txlen (s := s) (hlen ▸ hfit)).trans hlen, rfl⟩

/-- What a request with data answers where its frame does not fit. -/
theorem exec_dataRequest_error {i : Instr} {sa fc : Byte} {n : Nat} {s : State}
    (h : exec i s = finishPack (encode i) s (dataRequest sa fc n s)) (hfull : 256 < 9 + n) :
    exec i s = .next (s.raiseFatal .txCap (encode i)) := by
  rw [h, dataRequest_error hfull, finishPack_error]

/-- Settles O24, by whether the frame fits. -/
theorem coilsRequestFrame : Obligations.CoilsRequestFrame := by
  rintro sa s _ rfl
  exact ⟨rfl, exec_dataRequest rfl, exec_dataRequest_error rfl⟩

/-- Settles O25, by whether the frame fits. -/
theorem registersRequestFrame : Obligations.RegistersRequestFrame := by
  rintro sa s _ rfl
  exact ⟨rfl, exec_dataRequest rfl, exec_dataRequest_error rfl⟩

/-! ## The primitive commands of a request (43_request_builders.md R160) -/

/-- The state that pack commands leave after building `body` from its start: the frame of `s.framed body`, and RESULT OK. -/
def State.packed (s : State) (body : List Byte) : State := (s.setResult .ok 0#8 false).framed body

section
variable {s : State} {is : List Instr} {body : List Byte}

theorem runCommands_beginPack (sa fc : Byte) (hf : s.status.fatal = false) :
    runCommands (.beginPack sa fc :: is) s = runCommands is (s.packed [sa, fc]) :=
  runCommands_ok (w := encode (.beginPack sa fc)) (r := .ok (s.framed [sa, fc])) rfl rfl hf

theorem runCommands_packWord (w : Half) (hf : s.status.fatal = false) (h : body.length + 2 ≤ 256) :
    runCommands (.packWord w :: is) (s.packed body) = runCommands is (s.packed (body ++ wordBytes w)) :=
  runCommands_ok rfl (packWordSteps_framed (s := s.setResult .ok 0#8 false) h) hf

theorem runCommands_packByte (b : Byte) (hf : s.status.fatal = false) (h : body.length + 1 ≤ 256) :
    runCommands (.packByte b :: is) (s.packed body) = runCommands is (s.packed (body ++ [b])) :=
  runCommands_ok rfl (append_framed (s := s.setResult .ok 0#8 false) h) hf

theorem runCommands_packBytes {n : Len} (hf : s.status.fatal = false) (h : body.length + n.toNat ≤ 256) :
    runCommands (.packBytes n :: is) (s.packed body) =
      runCommands is ({ s with draws := (s.data.readSeq 0 n.toNat s.draws).2 }.packed (body ++ dataRead s n.toNat)) :=
  runCommands_ok rfl (packBytesSteps_framed (s := s.setResult .ok 0#8 false) h) hf

theorem runCommands_packBytes_error {n : Len} (hb : body.length ≤ 256) (h : 256 < body.length + n.toNat) :
    runCommands (.packBytes n :: is) (s.packed body) = none :=
  runCommands_error rfl (packBytesSteps_error (by rwa [State.packed, State.framed_txlen hb]))

theorem runCommands_endPack (hf : s.status.fatal = false) (h : body.length + 2 ≤ 256) :
    runCommands [.endPack] (s.packed body) = some { s.packed (withCrc body) with crc := crc16 body } :=
  runCommands_ok rfl (endPackSteps_framed (s := s.setResult .ok 0#8 false) h) hf

theorem runCommands_endPack_error (hb : body.length ≤ 256) (h : 256 < body.length + 2) :
    runCommands (.endPack :: is) (s.packed body) = none :=
  runCommands_error rfl (endPackSteps_framed_error hb h)

/-- The commands that every request begins with. -/
theorem runCommands_header (sa fc : Byte) (hi lo : Half) (hf : s.status.fatal = false) :
    runCommands (.beginPack sa fc :: .packWord hi :: .packWord lo :: is) s =
      runCommands is (s.packed (twoWordBody sa fc hi lo)) := by
  rw [runCommands_beginPack sa fc hf, runCommands_packWord hi hf (by simp),
    runCommands_packWord lo hf (by simp [wordBytes]), twoWordBody]

theorem runCommands_twoWordCommands (sa fc : Byte) (hi lo : Half) (hf : s.status.fatal = false) :
    runCommands (twoWordCommands sa fc hi lo) s =
      some { s.packed (withCrc (twoWordBody sa fc hi lo)) with crc := crc16 (twoWordBody sa fc hi lo) } := by
  rw [twoWordCommands, runCommands_header sa fc hi lo hf, runCommands_endPack hf (by simp [twoWordBody, wordBytes])]

/-- A byte count that PACK_BYTES can name. -/
theorem len_ofNat {n : Nat} (hn : n ≤ 256) : (BitVec.ofNat 9 n).toNat = n := Nat.mod_eq_of_lt (by omega)

/-- The commands of a request with data, before PACK_BYTES. -/
theorem runCommands_dataCommands (sa fc : Byte) (hi lo : Half) (n : Nat) (hf : s.status.fatal = false) :
    runCommands (dataCommands sa fc hi lo n) s =
      runCommands [.packBytes (BitVec.ofNat 9 n), .endPack] (s.packed (twoWordBody sa fc hi lo ++ [byteCount n])) := by
  rw [dataCommands, runCommands_header sa fc hi lo hf, runCommands_packByte _ hf (by simp [twoWordBody, wordBytes]),
    byteCount]

theorem runCommands_dataCommands_ok {sa fc : Byte} {hi lo : Half} {n : Nat} (hf : s.status.fatal = false)
    (hfit : 9 + n ≤ 256) :
    runCommands (dataCommands sa fc hi lo n) s =
      some { { s with draws := (s.data.readSeq 0 n s.draws).2 }.packed
          (withCrc (dataBody sa fc hi lo (dataRead s n))) with
        crc := crc16 (dataBody sa fc hi lo (dataRead s n)) } := by
  have hbody : twoWordBody sa fc hi lo ++ [byteCount n] ++ dataRead s n = dataBody sa fc hi lo (dataRead s n) := by
    rw [dataBody, dataRead_length, twoWordBody]
  have hlen := dataBody_length sa fc hi lo (dataRead s n)
  rw [dataRead_length] at hlen
  have hn := len_ofNat (n := n) (by omega)
  have hhead : (twoWordBody sa fc hi lo ++ [byteCount n]).length = 7 := rfl
  rw [runCommands_dataCommands sa fc hi lo n hf, runCommands_packBytes hf (by omega), hn, hbody]
  exact runCommands_endPack hf (by omega)

/-- Where the frame does not fit, PACK_BYTES faults, or END_PACK after it. -/
theorem runCommands_dataCommands_error {sa fc : Byte} {hi lo : Half} {n : Nat} (hf : s.status.fatal = false)
    (hn : n ≤ 256) (hfull : 256 < 9 + n) : runCommands (dataCommands sa fc hi lo n) s = none := by
  have hlen : (twoWordBody sa fc hi lo ++ [byteCount n]).length = 7 := rfl
  have hn := len_ofNat hn
  rw [runCommands_dataCommands sa fc hi lo n hf]
  by_cases h : 7 + n ≤ 256
  · have hbody : (twoWordBody sa fc hi lo ++ [byteCount n] ++ dataRead s n).length = 7 + n := by
      rw [List.length_append, dataRead_length, hlen]
    rw [runCommands_packBytes hf (by omega), hn, runCommands_endPack_error (by omega) (by omega)]
  · rw [runCommands_packBytes_error (by omega) (by omega)]

end

/-- A request and its primitive commands agree from `s`. -/
def EqualsPrimitives (i : Instr) (s : State) : Prop :=
  (∀ t, runCommands (requestCommands i s.arg) s = some t → exec i s = .next t) ∧
    (runCommands (requestCommands i s.arg) s = none → exec i s = .next (s.raiseFatal .txCap (encode i)))

/-- A request of two words and its commands both complete. -/
theorem equalsPrimitives_twoWord {i : Instr} {s : State} {sa fc : Byte} {w : Half} (hf : s.status.fatal = false)
    (hcmds : requestCommands i s.arg = twoWordCommands sa fc (argHi s.arg) w)
    (hexec : exec i s = finishPack (encode i) s (twoWordRequest sa fc w s)) : EqualsPrimitives i s := by
  rw [twoWordRequest_ok, finishPack_ok] at hexec
  rw [EqualsPrimitives, hcmds, runCommands_twoWordCommands sa fc _ w hf]
  exact ⟨fun t ht => Option.some.inj ht ▸ hexec, nofun⟩

/-- A request with data and its commands both complete where the frame fits; else both fault. -/
theorem equalsPrimitives_data {i : Instr} {s : State} {sa fc : Byte} {n : Nat} (hf : s.status.fatal = false)
    (hn : n ≤ 256) (hcmds : requestCommands i s.arg = dataCommands sa fc (argHi s.arg) (argLo s.arg) n)
    (hexec : exec i s = finishPack (encode i) s (dataRequest sa fc n s)) : EqualsPrimitives i s := by
  rw [EqualsPrimitives, hcmds]
  by_cases hfit : 9 + n ≤ 256
  · rw [dataRequest_ok hfit, finishPack_ok] at hexec
    rw [runCommands_dataCommands_ok hf hfit]
    exact ⟨fun t ht => Option.some.inj ht ▸ hexec, nofun⟩
  · rw [dataRequest_error (Nat.lt_of_not_le hfit), finishPack_error] at hexec
    rw [runCommands_dataCommands_error hf hn (Nat.lt_of_not_le hfit)]
    exact ⟨nofun, fun _ => hexec⟩

/-- Settles O26, request by request: the six of two words, and the two with data. -/
theorem requestEqualsPrimitives : Obligations.RequestEqualsPrimitives := by
  intro i s hi hf hn
  cases i with
  | reqRdCoils sa => exact equalsPrimitives_twoWord hf rfl rfl
  | reqRdDisc sa => exact equalsPrimitives_twoWord hf rfl rfl
  | reqRdHregs sa => exact equalsPrimitives_twoWord hf rfl rfl
  | reqRdIregs sa => exact equalsPrimitives_twoWord hf rfl rfl
  | reqWrCoil sa v => exact equalsPrimitives_twoWord hf rfl rfl
  | reqWrReg sa => exact equalsPrimitives_twoWord hf rfl rfl
  | reqWrCoils sa => exact equalsPrimitives_data hf hn rfl rfl
  | reqWrRegs sa => exact equalsPrimitives_data hf hn rfl rfl
  | _ => cases hi

end Sys2Proof.Machine

/-! PROOFS. The statements of 44_control.md: NOP, and the pseudo-instructions `poll`, `cmd`, `ldbuf`, `ldrx` and
`rdtx`. -/

namespace Sys2Proof.Machine

/-! ## NOP (44_control.md R180, 30_encoding.md R76) -/

/-- Settles O5: OP = 0x00 selects the row of NOP, whose format has no operand and so one word. -/
theorem nopRecordsOkOnly : Obligations.NopRecordsOkOnly := by
  refine ⟨fun s => rfl, fun w i hw => ?_⟩
  have hop : opcodeOf (opField w) = some .nop := by rw [hw]; rfl
  have hword : encN .nop = 0x00000000#32 := by decide
  calc
    decode w = .ok i ↔ decodeN w .nop = .ok i := by rw [decode_eq_decodeFields hop, decodeFields]
    _ ↔ encN .nop = w ∧ Instr.nop = i := decodeN_eq_ok hop
    _ ↔ w = 0x00000000#32 ∧ i = .nop := by rw [hword, eq_comm, @eq_comm _ Instr.nop]

/-! ## The operations still to come -/

/-- A command takes none of the host's operations. -/
theorem exec_inputs {i : Instr} {s t : State} (h : exec i s = .next t) : t.inputs = s.inputs := by
  obtain ⟨u, hu, hdone | ⟨-, cause, rfl⟩⟩ := exec_outcome i s
  · cases hu.symm.trans h
    cases hdone <;> rfl
  · cases hu.symm.trans h
    rfl

/-- Executing a word, legal or not, takes none of the host's operations. -/
theorem executeWord_inputs {w : Word} {s t : State} (h : executeWord w s = .next t) : t.inputs = s.inputs := by
  unfold executeWord at h
  split at h
  · exact exec_inputs h
  · cases h
    rfl

/-- A host operation of an idle block comes next. -/
theorem State.idle.hostNext {s : State} {op : HostOp} {rest : List Input} (hi : s.idle)
    (h : s.inputs = .access .host op :: rest) : s.hostNext op rest :=
  ⟨h, State.engineTurn_of_inactive (State.idle_engineActive hi.1)⟩

/-! ## `poll` (44_control.md R183) -/

/-- The engine's step on a word. -/
theorem engineStep_word {s : State} {w : Word} (hp : s.pend = some w) :
    engineStep s = afterNext State.retire (executeWord w s) := by
  simp only [engineStep, hp]

/-- `poll` over a command in the engine: it repeats for the latency, the engine performs the word, and one more read of
STATUS finds BUSY = 0. -/
theorem run_poll_active {s : State} {w : Word} {rest : List Input} (h : s.inputs = .access .host .poll :: rest)
    (ha : s.engineActive = true) (hp : s.pend = some w) :
    ∃ rd u, executeWord w { s with latency := 0, rdata := rd } = .next u ∧
      runSteps (s.latency + 2) s =
        .next { u.retire with inputs := rest, rdata := some (statusWord u.retire.status) } := by
  obtain ⟨rd, hwait⟩ := run_poll_busy h ha
  obtain ⟨u, hu⟩ := executeWord_next w { s with latency := 0, rdata := rd }
  have hturn : ({ s with latency := 0, rdata := rd } : State).engineTurn = true := by
    simp only [State.engineTurn, beq_self_eq_true, Bool.true_or, Bool.and_true]
    exact ha
  have hengine : step { s with latency := 0, rdata := rd } = .next u.retire := by
    rw [step_engine hturn, engineStep_word (by exact hp), hu]
    rfl
  have hdone := step_poll_done (s := u.retire) ((executeWord_inputs hu).trans h) rfl
  refine ⟨rd, u, hu, ?_⟩
  rw [run_add hwait, run_succ hengine, run_succ hdone, run_zero]
  rfl

/-- Settles O48, by whether a command is in the engine: where none is, the invariant gives BUSY = 0. -/
theorem pollEnds : Obligations.PollEnds := by
  intro s rest hinv h
  cases ha : s.engineActive with
  | false =>
    have hb := hinv.idle_of_inactive ha
    exact ⟨1, _, by omega, run_succ (step_poll_done h hb), rfl, hb⟩
  | true =>
    have hpend : s.pend.isSome = true := hinv.pendBusy ▸ (State.engineActive_iff.1 ha).1
    obtain ⟨w, hw⟩ := Option.isSome_iff_exists.1 hpend
    obtain ⟨rd, u, -, hrun⟩ := run_poll_active h ha hw
    exact ⟨_, _, Nat.le_refl _, hrun, rfl, rfl⟩

/-! ## `cmd` (44_control.md R184) -/

/-- Settles O49: the CMD write hands the word to the engine, and `poll` over it performs the command the word decodes to
(O1). -/
theorem cmdRunsItsCommand : Obligations.CmdRunsItsCommand := by
  intro s i rest hi hwf h
  have hwrite := step_write_idle (hi.hostNext h) hi.1 hi.2
  rw [State.writeEffect_cmd] at hwrite
  obtain ⟨rd, u, hu, hrun⟩ := run_poll_active
    (s := { s with inputs := .access .host .poll :: rest, latency := s.latency - 1 }.writeCmd (encode i))
    rfl (State.engineActive_iff.2 ⟨rfl, hi.2⟩) rfl
  rw [executeWord, decodeOfEncode i hwf] at hu
  exact ⟨_, _, u, _, (run_succ hwrite).trans hrun, rfl, hu, rfl⟩

/-! ## `ldbuf` and `ldrx` (44_control.md R185) -/

/-- Index `i` of a buffer, at its place in the buffer's window (10_state.md R23). -/
theorem windowOffset_toNat (b : Buffer) {i : Nat} (hi : i < 256) :
    (BitVec.ofNat 10 (windowBase b + i)).toNat = windowBase b + i := by
  rw [BitVec.toNat_ofNat]
  cases b <;> simp only [windowBase] <;> omega

theorem regionOf_windowOffset (b : Buffer) {i : Nat} (hi : i < 256) :
    regionOf (BitVec.ofNat 10 (windowBase b + i)) = .window b i := by
  have hoff := windowOffset_toNat b hi
  cases b with
  | tx =>
    simp only [windowBase] at hoff ⊢
    rw [regionOf_tx (by omega) (by omega), hoff, Nat.add_sub_cancel_left]
  | rx =>
    simp only [windowBase] at hoff ⊢
    rw [regionOf_rx (by omega) (by omega), hoff, Nat.add_sub_cancel_left]
  | data =>
    simp only [windowBase] at hoff ⊢
    rw [regionOf_data (by omega), hoff, Nat.add_sub_cancel_left]

/-- A byte access of a window is legal. -/
theorem legalAccess_windowByte (b : Buffer) {i : Nat} (hi : i < 256) :
    LegalAccess (BitVec.ofNat 10 (windowBase b + i)) .byte :=
  legalAccess_high (regionOf_window (regionOf_windowOffset b hi)).1 (Nat.mod_one _)

/-- The state with bytes stored in a buffer from index `i` on; the host cannot write TX (20_memory.md R59). -/
def State.stored (s : State) : Buffer → Nat → List Byte → State
  | .tx, _, _ => s
  | .rx, i, bs => { s with rx := s.rx.writeAll i bs }
  | .data, i, bs => { s with data := s.data.writeAll i bs }

@[simp] theorem State.stored_nil (s : State) (b : Buffer) (i : Nat) : s.stored b i [] = s := by cases b <;> rfl

@[simp] theorem State.stored_cons (s : State) (b : Buffer) (i : Nat) (x : Byte) (xs : List Byte) :
    (s.stored b i [x]).stored b (i + 1) xs = s.stored b i (x :: xs) := by cases b <;> rfl

@[simp] theorem State.stored_status (s : State) (b : Buffer) (i : Nat) (bs : List Byte) :
    (s.stored b i bs).status = s.status := by cases b <;> rfl

@[simp] theorem State.stored_latency (s : State) (b : Buffer) (i : Nat) (bs : List Byte) :
    (s.stored b i bs).latency = s.latency := by cases b <;> rfl

@[simp] theorem State.stored_inputs (s : State) (b : Buffer) (i : Nat) (bs : List Byte) :
    (s.stored b i bs).inputs = s.inputs := by cases b <;> rfl

theorem State.stored_setInputs (s : State) (b : Buffer) (i : Nat) (bs : List Byte) (is : List Input) (n : Nat) :
    { s.stored b i bs with inputs := is, latency := n } = { s with inputs := is, latency := n }.stored b i bs := by
  cases b <;> rfl

theorem State.idle.stored {s : State} (h : s.idle) (b : Buffer) (i : Nat) (bs : List Byte) :
    (s.stored b i bs).idle := by
  simpa only [State.idle, State.stored_status] using h

/-- A byte write through a window of an idle block stores its byte (20_memory.md R59). -/
theorem step_write_byte {s : State} {b : Buffer} {i : Nat} {x : Byte} {rest : List Input} (hi : s.idle) (hlt : i < 256)
    (h : s.inputs = .access .host (.write (BitVec.ofNat 10 (windowBase b + i)) .byte (x.setWidth 32)) :: rest) :
    step s = .next ({ s with inputs := rest, latency := s.latency - 1 }.stored b i [x]) := by
  have hr := regionOf_windowOffset b hlt
  rw [step_write_legal (hi.hostNext h) (legalAccess_windowByte b hlt) hi]
  cases b with
  | tx => rw [State.writeEffect_txWindow hr, State.stored]
  | rx => rw [State.writeEffect_rxWindow hr, Width.bytes, leBytes_one, State.stored]
  | data => rw [State.writeEffect_dataWindow hr, Width.bytes, leBytes_one, State.stored]

/-- The byte writes of `ldbuf` store their bytes one after the other. -/
theorem run_bufferWrites {b : Buffer} {bytes : List Byte} {i : Nat} {s : State} {rest : List Input} (hi : s.idle)
    (hfit : i + bytes.length ≤ 256) (h : s.inputs = (bufferWrites b i bytes).map (Input.access .host) ++ rest) :
    runSteps bytes.length s =
      .next ({ s with inputs := rest, latency := s.latency - bytes.length }.stored b i bytes) := by
  induction bytes generalizing i s with
  | nil =>
    have h : s.inputs = rest := h
    simp [← h]
  | cons x xs ih =>
    rw [List.length_cons] at hfit
    have hstep := step_write_byte (rest := (bufferWrites b (i + 1) xs).map (Input.access .host) ++ rest) hi (by omega) h
    rw [List.length_cons, run_succ hstep]
    refine (ih (i := i + 1) (State.idle.stored (by exact hi) b i [x]) (by omega) (State.stored_inputs ..)).trans ?_
    simp only [State.stored_setInputs, State.stored_cons, State.stored_latency, Nat.sub_sub, Nat.add_comm 1]

/-- Settles O50: both loads are byte writes from index 0 on; `ldrx` writes their number to RXLEN after them. -/
theorem loadsFillTheBuffers : Obligations.LoadsFillTheBuffers := by
  intro s bytes rest hi hlen
  have hfit : 0 + bytes.length ≤ 256 := by omega
  refine ⟨fun h => ?_, fun h => ?_⟩
  · exact ⟨_, run_bufferWrites hi hfit h, Memory.writeAll_holds s.data 0 bytes,
      Memory.writeAll_sameOutside s.data 0 bytes, rfl⟩
  · rw [ldrxOps, List.map_append, List.append_assoc] at h
    have hrun := run_bufferWrites hi hfit h
    have hnum : (BitVec.ofNat 32 bytes.length).toNat = bytes.length := Nat.mod_eq_of_lt (by omega)
    obtain ⟨-, hok, -⟩ := rxlenWrite (State.stored { s with
      inputs := .access .host (wrReg .rxlen (BitVec.ofNat 32 bytes.length)) :: rest
      latency := s.latency - bytes.length } .rx 0 bytes) _ rest
      ⟨rfl, State.engineTurn_of_inactive (State.idle_engineActive hi.1)⟩ hi.1
    obtain ⟨x, hx, hlast⟩ := hok hi.2 (by omega)
    exact ⟨_, (run_add hrun).trans (run_succ hlast), Memory.writeAll_holds s.rx 0 bytes,
      Memory.writeAll_sameOutside s.rx 0 bytes, hx.trans hnum, rfl⟩

/-! ## `rdtx` (44_control.md R185) -/

/-- The first step of `rdtx` reads TXLEN and puts the byte reads of the frame first. -/
theorem step_rdtx {s : State} {rest : List Input} (hi : s.idle) (h : s.inputs = .access .host .rdtx :: rest) :
    step s = .next { s with
      inputs := (txReads s.txlen.toNat).map (Input.access .host) ++ rest
      latency := s.latency - 1
      rdata := some (s.txlen.setWidth 32) } := by
  rw [step_host (hi.hostNext h), State.takeInput_eq h]
  simp only [hostStep]
  rw [State.mayRead_of_inactive _ (State.idle_engineActive (by exact hi.1)),
    guardAccess_ok (legalAccess_register .txlen), State.hostRead, State.busRead_reg (regionOf_regOffset .txlen)]
  rfl

/-- A byte read through a window of an idle block returns the byte written there (20_memory.md R58). -/
theorem step_read_byte {s : State} {b : Buffer} {i : Nat} {x : Byte} {rest : List Input} (hi : s.idle) (hlt : i < 256)
    (h : s.inputs = .access .host (.read (BitVec.ofNat 10 (windowBase b + i)) .byte) :: rest)
    (hx : (s.buffer b).lookup i = some x) :
    step s = .next { s with inputs := rest, latency := s.latency - 1, rdata := some (x.setWidth 32) } := by
  have hread : (s.buffer b).readSeq i Width.byte.bytes s.draws = ([x], s.draws) := by
    simp [Width.bytes, Memory.readSeq, Memory.read_written hx]
  have hbuffer : ({ s with inputs := rest, latency := s.latency - 1 } : State).buffer b = s.buffer b := by
    cases b <;> rfl
  rw [step_read_legal (hi.hostNext h) (legalAccess_windowByte b hlt)
    (State.mayRead_of_inactive _ (State.idle_engineActive hi.1)), State.hostRead,
    State.busRead_window (regionOf_windowOffset b hlt), hbuffer, hread, leValue_one]

/-- The byte reads of TX for `n` indices from `i` on. -/
def txReadsFrom (i n : Nat) : List HostOp := (List.range' i n).map fun k => .read (BitVec.ofNat 10 (0x100 + k)) .byte

theorem txReads_eq_txReadsFrom (n : Nat) : txReads n = txReadsFrom 0 n := by
  rw [txReads, txReadsFrom, List.range_eq_range']

/-- Reads of written bytes of TX return them one after the other, and keep TX. -/
theorem run_txReads {bytes : List Byte} {i k : Nat} {b : Byte} {s : State} {rest : List Input} (hi : s.idle)
    (hfit : i + bytes.length ≤ 256) (htx : s.tx.holds i bytes) (hk : bytes[k]? = some b)
    (h : s.inputs = (txReadsFrom i bytes.length).map (Input.access .host) ++ rest) :
    ∃ t, runSteps (k + 1) s = .next t ∧ t.rdata = some (b.setWidth 32) ∧ t.tx = s.tx ∧
      (k + 1 = bytes.length → t.inputs = rest) := by
  induction bytes generalizing i k s with
  | nil => simp at hk
  | cons x xs ih =>
    rw [List.length_cons] at hfit
    obtain ⟨hx, hxs⟩ := Memory.holds_cons.1 htx
    have hstep := step_read_byte (b := .tx) hi (by omega) h hx
    rw [run_succ hstep]
    cases k with
    | zero =>
      cases hk
      refine ⟨_, rfl, rfl, rfl, fun hlast => ?_⟩
      obtain rfl : xs = [] := List.length_eq_zero_iff.1 (Nat.succ.inj hlast).symm
      rfl
    | succ k =>
      obtain ⟨t, hrun, hdata, hkept, hrest⟩ := ih (s := { s with
        inputs := (txReadsFrom (i + 1) xs.length).map (Input.access .host) ++ rest
        latency := s.latency - 1
        rdata := some (x.setWidth 32) }) hi (by omega) hxs hk rfl
      exact ⟨t, hrun, hdata, hkept, fun hlast => hrest (Nat.succ.inj hlast)⟩

/-- Settles O51: the first step reads TXLEN, and the reads that it puts first return the frame. -/
theorem rdtxReadsTheFrame : Obligations.RdtxReadsTheFrame := by
  intro s frame rest hi h htx hlen hcap
  have hstep := step_rdtx hi h
  refine ⟨⟨_, run_succ hstep, rfl⟩, fun k b hk => ?_⟩
  rw [txReads_eq_txReadsFrom, ← hlen] at hstep
  rw [run_succ hstep]
  exact run_txReads hi (by omega) htx hk rfl

end Sys2Proof.Machine

/-! PROOFS. The statements of 60_exceptions.md: what a fatal fault latches and which commands raise one, the halt and the
way out of it, and illegal words. -/

namespace Sys2Proof.Machine

/-! ## Fatal faults (60_exceptions.md R202, R203, R205) -/

/-- Settles O27, by the field laws of `State.raiseFatal`. -/
theorem fatalFaultLatches : Obligations.FatalFaultLatches :=
  ⟨fun s cause info => ⟨State.raiseFatal_status s cause info, State.raiseFatal_finfo s cause info,
    State.raiseFatal_rx s cause info, State.raiseFatal_rxlen s cause info, State.raiseFatal_arg s cause info⟩,
    rfl, rfl, rfl⟩

/-- A command that completes leaves FATAL, FCAUSE and FINFO as they were, and BUSY to the engine. -/
theorem Completion.keepsStatus {i : Instr} {s t : State} (h : Completion i s t) :
    t.status = s.status ∧ t.finfo = s.finfo := by
  cases h with
  | record | frame | bit | response => exact ⟨rfl, rfl⟩

/-- Settles O28: a command completes, or it latches a fatal fault. -/
theorem commandsCompleteOrLatch : Obligations.CommandsCompleteOrLatch := by
  intro i s
  obtain ⟨t, ht, hcase⟩ := exec_outcome i s
  exact ⟨t, ht, hcase.imp_left Completion.keepsStatus⟩

/-! ## The halt (60_exceptions.md R206 to R208) -/

/-- The engine never moves on a halted block. -/
theorem State.halted_engineTurn {s : State} (hf : s.status.fatal = true) : s.engineTurn = false :=
  State.engineTurn_of_inactive (State.halted_engineActive hf)

/-- A legal write of a halted block, but for CTRL's, takes its input and does nothing else. -/
theorem step_write_halted_legal {s : State} {off : Offset} {width : Width} {v : Word} {rest : List Input}
    (hf : s.status.fatal = true) (h : s.inputs = .access .host (.write off width v) :: rest)
    (hl : LegalAccess off width) (hoff : off ≠ regOffset .ctrl) :
    step s = .next { s with inputs := rest, latency := s.latency - 1 } := by
  rw [step_write ⟨h, State.halted_engineTurn hf⟩, State.mayWrite_of_inactive off (State.halted_engineActive hf),
    guardAccess_ok hl, State.takeInput_eq h, State.hostWrite_halted (by exact hf) hoff]

/-- Settles O31, clause by clause: a write but CTRL's, a soft reset, a read, and no input. -/
theorem haltedBlockIgnoresWrites : Obligations.HaltedBlockIgnoresWrites := by
  intro s hf
  have hturn := State.halted_engineTurn hf
  refine ⟨fun off width v rest h hl hoff => step_write_halted_legal hf h hl hoff, fun v rest h hv => ?_,
    fun off width rest h hl => ?_, fun h => step_idle h hturn⟩
  · obtain ⟨t, ht, -, hreset⟩ := step_softReset ⟨h, hturn⟩ hv
    exact ⟨t, ht, hreset⟩
  · exact ⟨_, step_read_legal ⟨h, hturn⟩ hl (State.mayRead_of_inactive off (State.halted_engineActive hf)), rfl, rfl⟩

/-- A legal write of a halted block is a soft reset, or has no effect. -/
theorem State.hostWrite_halted_cases {s : State} {off : Offset} {width : Width} (v : Word)
    (hf : s.status.fatal = true) (hl : LegalAccess off width) :
    (off = regOffset .ctrl ∧ width = .word ∧ v.getLsbD 0 = true ∧ s.hostWrite off width v = s.resetBlock) ∨
      s.hostWrite off width v = s := by
  by_cases hoff : off = regOffset .ctrl
  · subst hoff
    rw [State.hostWrite_ctrl]
    cases hv : v.getLsbD 0 with
    | true => exact .inl ⟨rfl, (hl.1 (by decide)).1, rfl, State.writeCtrl_reset hv⟩
    | false => exact .inr (State.writeCtrl_ignored hv)
  · exact .inr (State.hostWrite_halted hf hoff)

/-- Settles O32, by what a step can do: the engine does not move, and of the inputs only the two resets change FATAL,
FCAUSE or FINFO. -/
theorem onlyResetLeavesFatal : Obligations.OnlyResetLeavesFatal := by
  intro s t hf hstep
  obtain ⟨hturn, -⟩ | ⟨-, -, rfl⟩ | ⟨i, rest, -, hinputs, hinput⟩ := step_next hstep
  · simp [State.halted_engineTurn hf] at hturn
  · exact .inl ⟨hf, rfl, rfl⟩
  obtain ⟨rfl, rfl⟩ | ⟨op, rfl, hop⟩ := inputStep_next hinput
  · exact .inr ⟨State.resetBlock_afterReset _, rest, .inl hinputs⟩
  obtain ⟨off, width, v, rfl, hl, -, rfl⟩ | ⟨off, width, ops, -, -, rfl⟩ := hostStep_next hop
  · obtain ⟨rfl, rfl, hv, hreset⟩ | hignored := State.hostWrite_halted_cases (s := s.takeInput) v hf hl
    · rw [hreset]
      exact .inr ⟨State.resetBlock_afterReset _, rest, .inr ⟨v, hv, hinputs⟩⟩
    · rw [hignored]
      exact .inl ⟨hf, rfl, rfl⟩
  · exact .inl ⟨hf, rfl, rfl⟩

/-! ## Illegal words (60_exceptions.md R201, 30_encoding.md R75) -/

/-- A word whose OP is no opcode is illegal (30_encoding.md R75). -/
theorem decode_reserved {w : Word} (h : ∀ o : Opcode, o.toByte.toNat ≠ w.toNat % 256) :
    decode w = .error .reservedOpcode := by
  cases hop : opcodeOf (opField w) with
  | none => rw [decode, hop]
  | some o => exact absurd (opField_toNat hop) (h o)

/-- Settles O34: the engine's step on an illegal word, and no opcode of 30_encoding.md R73 lies in a reserved range. -/
theorem illegalWordEffect : Obligations.IllegalWordEffect := by
  refine ⟨fun s w e ht hp hd => ?_, fun w op hop hreserved => ⟨_, decode_reserved fun o ho => ?_⟩⟩
  · rw [step_engine ht, engineStep_illegal hp hd]
    rfl
  · rw [← hop] at ho
    subst ho
    revert hreserved
    cases o <;> decide

end Sys2Proof.Machine

/-! PROOFS. The statements of 70_reset_and_hazards.md: the values that a reset leaves, and the host protocol while a
command is in the engine. -/

namespace Sys2Proof.Machine

/-! ## Reset (70_reset_and_hazards.md R230) -/

/-- A hardware reset resets the block, whatever BUSY and FATAL are. -/
theorem step_hardwareReset {s : State} {rest : List Input} (h : s.inputs = .hardwareReset :: rest)
    (ht : s.engineTurn = false) :
    step s = .next (State.resetBlock { s with inputs := rest, latency := s.latency - 1 }) := by
  rw [step_input h ht, State.takeInput_eq h]
  rfl

/-- The host may write CTRL at any time (10_state.md R32). -/
theorem step_write_ctrl {s : State} {v : Word} {rest : List Input}
    (h : s.hostNext (.write (regOffset .ctrl) .word v) rest) :
    step s = .next ({ s with inputs := rest, latency := s.latency - 1 }.writeCtrl v) := by
  rw [step_write_register h (State.mayWrite_iff.2 (.inr rfl)), State.hostWrite_ctrl]

/-- Settles O45: a hardware reset and a CTRL write with SRST set are both `State.resetBlock`, and a CTRL write with SRST
clear is ignored. -/
theorem resetLeavesSpecifiedValues : Obligations.ResetLeavesSpecifiedValues := by
  refine ⟨State.resetBlock_afterReset State.reset, fun s rest h ht => ?_, fun s v rest h => ?_⟩
  · exact ⟨_, step_hardwareReset h ht, State.resetBlock_afterReset _, State.resetBlock_inputs _⟩
  · have hstep := step_write_ctrl h
    refine ⟨fun hv => ?_, fun hv => ?_⟩
    · rw [State.writeCtrl_reset hv] at hstep
      exact ⟨_, hstep, State.resetBlock_afterReset _, State.resetBlock_inputs _⟩
    · rwa [State.writeCtrl_ignored hv] at hstep

/-! ## The host protocol while a command is in the engine (70_reset_and_hazards.md R240) -/

/-- The guard reports a violation of the host protocol exactly for a legal access that the protocol forbids. -/
theorem guardAccess_violation_iff {off : Offset} {width : Width} {allowed : Bool} {t : State}
    (hl : LegalAccess off width) :
    guardAccess off width allowed t = .fault .hostProtocolViolation ↔ allowed = false := by
  cases allowed with
  | true => simp [guardAccess_ok hl]
  | false => simp [guardAccess_violation hl]

/-- While a command is in the engine the host may read STATUS alone. -/
theorem State.mayRead_eq_false_iff {s : State} {off : Offset} (ha : s.engineActive = true) :
    s.mayRead off = false ↔ off ≠ regOffset .status := by
  rw [← Bool.not_eq_true, State.mayRead_iff, ha]
  simp

/-- While a command is in the engine the host may write CTRL alone. -/
theorem State.mayWrite_eq_false_iff {s : State} {off : Offset} (ha : s.engineActive = true) :
    s.mayWrite off = false ↔ off ≠ regOffset .ctrl := by
  rw [← Bool.not_eq_true, State.mayWrite_iff, ha]
  simp

/-- `rdtx` reads TXLEN first, which no host may while a command is in the engine. -/
theorem step_rdtx_active {s : State} {rest : List Input} (ha : s.engineActive = true) (h : s.hostNext .rdtx rest) :
    step s = .fault .hostProtocolViolation := by
  rw [step_host h]
  simp only [hostStep]
  rw [State.takeInput_mayRead, State.mayRead_active ha (by decide), guardAccess_violation (legalAccess_register .txlen)]

/-- Settles O37: a read and a write go through the guard, which forbids all but STATUS and CTRL; `poll` reads STATUS, and
`rdtx` reads TXLEN. -/
theorem busyAccessesAreViolations : Obligations.BusyAccessesAreViolations := by
  intro s rest hb hf
  have ha : s.engineActive = true := State.engineActive_iff.2 ⟨hb, hf⟩
  refine ⟨fun off width h hl => ?_, fun off width v h hl => ?_, fun h => ⟨_, step_poll_busy h.1 hb h.2⟩,
    step_rdtx_active ha⟩
  · rw [step_read h, guardAccess_violation_iff hl]
    exact State.mayRead_eq_false_iff ha
  · rw [step_write h, guardAccess_violation_iff hl]
    exact State.mayWrite_eq_false_iff ha

end Sys2Proof.Machine
